-- ==== Sys2Proof/Config.lean ====
section
/-! DEFINITION. The build parameters of one SPE (00_scope.md R5 to R9).

P_PRIMITIVES and P_READBACK are fixed for a machine; each State carries them in its field `build`, no step changes
them, and so a statement about every State covers every build. P_LATENCY (R7) is the schedule of State, P_INSTANCES
(R8) and P_BASE (R9) are in Machine/Platform.lean. The spec leaves no value of any command open, so there is no free
value here. -/

namespace Sys2Proof

/-- The two build parameters that a rule of one instance depends on. -/
structure Build where
  /-- `P_PRIMITIVES` (R5): the commands 0x10 to 0x15 are legal. -/
  primitives : Bool
  /-- `P_READBACK` (R6): CUR0, CUR1 and TABLE show the Cipher State. -/
  readback : Bool
deriving DecidableEq, Repr

/-- The reference configuration: both parameters true (R5, R6). -/
def Build.reference : Build := { primitives := true, readback := true }

end Sys2Proof
end

