-- ==== Sys2Proof/Word.lean ====
section
/-! DEFINITION. The value types of the spec (00_scope.md R11): bytes, nibbles and 32-bit words. -/

namespace Sys2Proof

/-- `u8` of R11: an 8-bit unsigned value; `+` and `-` wrap modulo 256. -/
abbrev Byte := BitVec 8

/-- `u4` of R11: a nibble, 0..15. -/
abbrev Nibble := BitVec 4

/-- `u32` of R11: a 32-bit unsigned value; `+` and `-` wrap modulo 2^32. -/
abbrev Word := BitVec 32

end Sys2Proof
end

