-- ==== Sys2Proof/Syntax.lean ====
section
/-! DEFINITION. The commands of the SPE: one constructor for each row of spec/opcode_table.json (30_encoding.md R74).

Form Z carries no operand, form B a byte, form N a nibble (R71, R72). UNIFORM's 32-bit bound is not in its word: it is
in LATCH (R73). -/

namespace Sys2Proof

/-- A command (R74). -/
inductive Instr where
  /-- NOP, 0x00, form Z (44_system.md R210). -/
  | nop
  /-- INIT, 0x01, form Z (43_protocol.md R180). -/
  | init
  /-- ABSORB b, 0x02, form B (41_absorb.md R136). -/
  | absorb (b : Byte)
  /-- ABSORB_STOP, 0x03, form Z (41_absorb.md R137). -/
  | absorbStop
  /-- FLUSH, 0x04, form Z (43_protocol.md R181). -/
  | flush
  /-- FINAL len, 0x05, form B (43_protocol.md R182). -/
  | final (len : Byte)
  /-- DRIP, 0x06, form Z (42_extract.md R156). -/
  | drip
  /-- RANDOM32, 0x07, form Z (43_protocol.md R183). -/
  | random32
  /-- CRYPT b, 0x08, form B (43_protocol.md R184). -/
  | crypt (b : Byte)
  /-- UNIFORM, 0x09, form Z (43_protocol.md R185). -/
  | uniform
  /-- WIPE, 0x0F, form Z (44_system.md R211). -/
  | wipe
  /-- UPDATE, 0x10, form Z, primitive (40_engine.md R110). -/
  | update
  /-- WHIP, 0x11, form Z, primitive (40_engine.md R111). -/
  | whip
  /-- CRUSH, 0x12, form Z, primitive (40_engine.md R112). -/
  | crush
  /-- SHUFFLE, 0x13, form Z, primitive (40_engine.md R113). -/
  | shuffle
  /-- ABSORB_NIBBLE n, 0x14, form N, primitive (41_absorb.md R135). -/
  | absorbNibble (n : Nibble)
  /-- OUTPUT, 0x15, form Z, primitive (42_extract.md R155). -/
  | output
deriving DecidableEq, Repr

end Sys2Proof
end

