-- ==== Sys2Proof/WellFormed.lean ====
section
/-! DEFINITION. Which commands are legal on a build, and which on a wiped state.

Operand widths are in the types of Syntax.lean, so the one check left is P_PRIMITIVES (30_encoding.md R75). -/

namespace Sys2Proof

/-- The primitive opcodes, column P of 30_encoding.md R74: 0x10 to 0x15. -/
def Instr.isPrimitive : Instr → Bool
  | .update | .whip | .crush | .shuffle | .absorbNibble _ | .output => true
  | .nop | .init | .absorb _ | .absorbStop | .flush | .final _ | .drip | .random32 | .crypt _ | .uniform | .wipe =>
    false

/-- A command is well formed on a build when it is no primitive or the build has primitives (30_encoding.md R75). -/
def Instr.wellFormed (primitives : Bool) (i : Instr) : Bool := !i.isPrimitive || primitives

end Sys2Proof
end

