-- ==== Sys2Proof/Decode.lean ====
section
/-! DEFINITION. Decoding a command word and its encoder (30_encoding.md R70 to R79).

A command is one 32-bit word: OP in bits 7:0, IMM in bits 15:8, RSV in bits 31:16 (R70). Every word either spells one
command or is illegal, by one of the named reasons (R76, R78). -/

namespace Sys2Proof

/-- Bits 7:0, the opcode (R70). -/
def opField (word : Word) : Byte := word.extractLsb' 0 8

/-- Bits 15:8, the immediate (R70). -/
def immField (word : Word) : Byte := word.extractLsb' 8 8

/-- Bits 31:16, reserved (R70). -/
def rsvField (word : Word) : BitVec 16 := word.extractLsb' 16 16

/-- Why a word spells no command (R76, R78). -/
inductive Reject where
  /-- RSV is not 0 (R71). -/
  | reservedBits
  /-- The opcode is reserved (R76). -/
  | reservedOpcode
  /-- A primitive opcode on a build without primitives (R75). -/
  | primitiveAbsent
  /-- A form-Z opcode with IMM not 0 (R71). -/
  | immediateInFormZ
  /-- A form-N opcode with IMM[7:4] not 0 (R71). -/
  | nibbleTooWide
deriving DecidableEq, Repr

/-- What the decoder answers: `Cmd | Illegal` of R78. -/
inductive Decoded where
  | cmd (i : Instr)
  | illegal (why : Reject)
deriving DecidableEq, Repr

/-- The command of an answer, if it is one. -/
def Decoded.instr? : Decoded → Option Instr
  | .cmd i => some i
  | .illegal _ => none

/-- Form Z: IMM must be 0x00 (R71). -/
def decodeFormZ (imm : Byte) (i : Instr) : Decoded :=
  if imm = 0 then .cmd i else .illegal .immediateInFormZ

/-- Form N: IMM[7:4] must be 0 and the operand is IMM[3:0] (R71, R72). -/
def decodeFormN (imm : Byte) (mk : Nibble → Instr) : Decoded :=
  if imm.extractLsb' 4 4 = 0 then .cmd (mk (imm.extractLsb' 0 4)) else .illegal .nibbleTooWide

/-- The opcode map of R74, with the form of each row. -/
def decodeOp (op imm : Byte) : Decoded :=
  match op.toNat with
  | 0x00 => decodeFormZ imm .nop
  | 0x01 => decodeFormZ imm .init
  | 0x02 => .cmd (.absorb imm)
  | 0x03 => decodeFormZ imm .absorbStop
  | 0x04 => decodeFormZ imm .flush
  | 0x05 => .cmd (.final imm)
  | 0x06 => decodeFormZ imm .drip
  | 0x07 => decodeFormZ imm .random32
  | 0x08 => .cmd (.crypt imm)
  | 0x09 => decodeFormZ imm .uniform
  | 0x0F => decodeFormZ imm .wipe
  | 0x10 => decodeFormZ imm .update
  | 0x11 => decodeFormZ imm .whip
  | 0x12 => decodeFormZ imm .crush
  | 0x13 => decodeFormZ imm .shuffle
  | 0x14 => decodeFormN imm .absorbNibble
  | 0x15 => decodeFormZ imm .output
  | _ => .illegal .reservedOpcode

/-- The opcodes 0x10 to 0x15 (R75). -/
def isPrimitiveOp (op : Byte) : Bool := decide (0x10 ≤ op.toNat ∧ op.toNat ≤ 0x15)

/-- The decoder, a total function of the word and `P_PRIMITIVES` (R78), its checks in R78's order. -/
def decode (primitives : Bool) (word : Word) : Decoded :=
  if rsvField word ≠ 0 then .illegal .reservedBits
  else if isPrimitiveOp (opField word) && !primitives then .illegal .primitiveAbsent
  else decodeOp (opField word) (immField word)

/-- The opcode of a command (R74). -/
def Instr.opcode : Instr → Byte
  | .nop => 0x00
  | .init => 0x01
  | .absorb _ => 0x02
  | .absorbStop => 0x03
  | .flush => 0x04
  | .final _ => 0x05
  | .drip => 0x06
  | .random32 => 0x07
  | .crypt _ => 0x08
  | .uniform => 0x09
  | .wipe => 0x0F
  | .update => 0x10
  | .whip => 0x11
  | .crush => 0x12
  | .shuffle => 0x13
  | .absorbNibble _ => 0x14
  | .output => 0x15

/-- The immediate field of a command's word: the byte of form B, the zero-extended nibble of form N, 0 in form Z
(R71, R74). -/
def Instr.immediate : Instr → Byte
  | .absorb b => b
  | .final len => len
  | .crypt b => b
  | .absorbNibble n => n.zeroExtend 8
  | .nop | .init | .absorbStop | .flush | .drip | .random32 | .uniform | .wipe | .update | .whip | .crush | .shuffle
  | .output => 0

/-- The word of a command: `OP`, `(b << 8) | OP` or `(n << 8) | OP` (R74). -/
def encode (i : Instr) : Word := (i.immediate.zeroExtend 32 <<< 8) ||| i.opcode.zeroExtend 32

/-- The host's entry: the command this decoder reads from the bits `w` of one command word, on the reference build.
A command is one 32-bit word (R70), so bits from 32 up, which the table gives no row, spell no command. -/
def decodeTableWord (nbits w : Nat) : Option Instr :=
  if nbits ≤ 32 ∧ w < 2 ^ 32 then (decode Build.reference.primitives (BitVec.ofNat 32 w)).instr? else none

end Sys2Proof
end

