-- ==== Sys2Proof/Machine/State.lean ====
section
/-! DEFINITION. The state of one SPE and of the Host that drives it, as plain data (10_state.md R20 to R46).

The flags, registers and the Cipher State are the spec's. The fields that are the model's own are marked so; each has
its row in notes/assumptions. -/

namespace Sys2Proof.Machine

/-- The table space (20_memory.md R50): slot and byte pairs in one canonical form (`Memory.wf`). A slot that is not
listed reads as its reset content, slot `n` as `n`. -/
abbrev Memory := List Host.Cell

/-- What an unlisted slot reads as: `T[n] = n`, the reset content (10_state.md R44). -/
def Memory.unlisted (a : Nat) : Byte := BitVec.ofNat 8 a

/-- The canonical form: slots below 256, strictly rising, and no entry equal to what an unlisted slot reads as. -/
def Memory.wf : Memory → Bool
  | [] => true
  | (a, v) :: m => decide (a < 256) && decide (v ≠ Memory.unlisted a) && m.all (fun c => decide (a < c.1)) && Memory.wf m

/-- The Cipher State `E` (10_state.md R20 to R23). -/
structure Cipher where
  /-- The table T (R20). -/
  table : Memory
  /-- Cursor i (R21). -/
  i : Byte
  /-- Cursor j (R21). -/
  j : Byte
  /-- Cursor k (R21). -/
  k : Byte
  /-- Cursor z (R21). -/
  z : Byte
  /-- The absorption counter a (R22). -/
  a : Byte
  /-- The stride w (R23). -/
  w : Byte
deriving DecidableEq, Repr

/-- The latch of an accepted command (10_state.md R28). -/
structure Latch where
  /-- The command word. -/
  word : Word
  /-- ARG as it was at acceptance. -/
  bound : Word
deriving DecidableEq, Repr

/-- The three errors (60_exceptions.md R220). -/
inductive Err where
  | illegal
  | busy
  | invalid
deriving DecidableEq, Repr

/-- The width of a Host bus access. Only the aligned word access belongs to the interface (20_memory.md R53). -/
inductive Width where
  | word
  | half
  | byte
  | burst
deriving DecidableEq, Repr

/-- What the Host does next (00_scope.md R14, 30_encoding.md R80, R81). -/
inductive HostOp where
  /-- A read of a register offset, the `RD` line. -/
  | read (width : Width) (off : Nat)
  /-- A write of a value to a register offset: the command, `ARG` and `CLR` lines. -/
  | write (width : Width) (off : Nat) (v : Word)
  /-- `WAIT`: read STATUS until BUSY reads 0 (R81). -/
  | wait
deriving DecidableEq, Repr

/-- Who moves next (00_scope.md R10, 70_reset_and_hazards.md R250, 60_exceptions.md R235). -/
inductive Turn where
  | host
  | engine
  | hardReset
  | powerLoss
deriving DecidableEq, Repr

/-- The state of one SPE, its Host and the order in which they move. -/
structure State where
  /-- The Cipher State E (R20 to R26). -/
  cipher : Cipher
  /-- VALID (R27). -/
  valid : Bool
  /-- BUSY (R28). -/
  busy : Bool
  /-- LATCH (R28); `none` is the empty latch of R44. -/
  latch : Option Latch
  /-- ARG (R29). -/
  arg : Word
  /-- RESULT (R30). -/
  result : Word
  /-- ERR_ILLEGAL (R31). -/
  errIllegal : Bool
  /-- ERR_BUSY (R31). -/
  errBusy : Bool
  /-- ERR_INVALID (R31). -/
  errInvalid : Bool
  /-- P_PRIMITIVES and P_READBACK (00_scope.md R5, R6); constant. -/
  build : Build
  /-- The model's own (log entry 2): UNIFORM's working copy of E between two draws, hidden while BUSY = 1 (R43). -/
  draw : Option Cipher
  /-- The model's own (log entry 5): the device has been reset since its power came up (70_reset_and_hazards.md R251). -/
  resetDone : Bool
  /-- The model's own (log entry 4): what the Host has still to do (R42). -/
  program : List HostOp
  /-- The model's own (log entry 4): what the Host's `RD` lines returned, oldest first. -/
  reads : List Word
  /-- The model's own (log entry 3): who moves next; after its end the Engine moves while it can, else the Host. -/
  schedule : List Turn
deriving DecidableEq, Repr

/-- Machine stops. The errors of the SPE are not stops: they set a flag (60_exceptions.md R220). -/
inductive Fault where
  /-- Raised by a Host access at an offset at or beyond 0x200, outside the SPE (10_state.md R41). Safe: the model stops
  where the spec gives the block no behaviour. -/
  | outsideRegisterSpace
  /-- Raised by the Engine when BUSY = 1 but LATCH holds no legal command, and by UNIFORM run without a latch: states
  that no run from reset reaches (10_state.md R28, 60_exceptions.md R222). Safe: the spec gives no command to run. -/
  | noCommandLatched
deriving DecidableEq, Repr

/-- Reasons for which the model declines to go on. -/
inductive Refusal where
  /-- Raised by an arm of `exec` whose command has no meaning yet. Safe: nothing runs. -/
  | notModelled (mnemonic : String)
  /-- Raised by a Host access that is not an aligned 32-bit word access (20_memory.md R53: "a model refuses them").
  Safe: the spec gives such an access no meaning. -/
  | notAlignedWord
  /-- Raised by a Host access or an Engine turn between a power loss and the next hardware reset
  (70_reset_and_hazards.md R251: "a model refuses it"). Safe: the device has no defined state there. -/
  | beforeHardwareReset
deriving DecidableEq, Repr

/-- The Cipher State after hardware reset: identity table, cursors 0, stride 1 (10_state.md R44). -/
def Cipher.resetValue : Cipher := { table := [], i := 0, j := 0, k := 0, z := 0, a := 0, w := 1 }

/-- The state after hardware reset of a build (10_state.md R44, 70_reset_and_hazards.md R250), with a Host that has
nothing to do. -/
def State.resetOf (b : Build) : State :=
  { cipher := Cipher.resetValue, valid := true, busy := false, latch := none, arg := 0, result := 0,
    errIllegal := false, errBusy := false, errInvalid := false, build := b, draw := none, resetDone := true,
    program := [], reads := [], schedule := [] }

/-- The machine right after reset, on the reference build (00_scope.md R5, R6; 70_reset_and_hazards.md R251). -/
def State.reset : State := State.resetOf Build.reference

end Sys2Proof.Machine
end

