-- ==== Sys2Proof/Machine/Ops.lean ====
section
/-! DEFINITION. The named operations over the table, the Cipher State and the device state: table access and Swap
(00_scope.md R12, R13), raising an error (R15), the acceptance procedure and the completion of a command
(60_exceptions.md R222), and hardware reset (70_reset_and_hazards.md R250).

The SPE has no trap and no return from one (60_exceptions.md R226): raising an error is the one exception operation,
and clearing the flags (Flags.lean) takes the place of a return (R230). -/

namespace Sys2Proof.Machine

/-- What the memory reads at a slot number: the listed byte, else the reset content. -/
def Memory.lookup : Memory → Nat → Byte
  | [], a => Memory.unlisted a
  | (b, v) :: m, a => if a = b then v else Memory.lookup m a

/-- Puts one byte, keeping the canonical form: slots rise, and the value an unlisted slot reads as takes the entry
out. -/
def Memory.put : Memory → Nat → Byte → Memory
  | [], a, v => if v = Memory.unlisted a then [] else [(a, v)]
  | (b, x) :: m, a, v =>
    if a < b then (if v = Memory.unlisted a then (b, x) :: m else (a, v) :: (b, x) :: m)
    else if a = b then (if v = Memory.unlisted a then m else (a, v) :: m)
    else (b, x) :: Memory.put m a v

/-- `MemRead(x, 1)` on the table space (R12); the slot number is a `u8`, so it is always in range (20_memory.md R54). -/
def Memory.read (m : Memory) (x : Byte) : Byte := m.lookup x.toNat

/-- `MemWrite(x, 1, v)` on the table space (R12). -/
def Memory.write (m : Memory) (x v : Byte) : Memory := m.put x.toNat v

/-- The memory whose slots below `n` hold `f` and whose other slots hold their reset content:
`for v in 0..n-1: T[v] <- f v` from the reset content. -/
def Memory.tabulate (f : Nat → Byte) : Nat → Memory
  | 0 => []
  | n + 1 => (Memory.tabulate f n).put n (f n)

/-- `T[x]` (R12). -/
def Cipher.t (c : Cipher) (x : Byte) : Byte := c.table.read x

/-- `T[x] <- v` (R12). -/
def Cipher.setT (c : Cipher) (x v : Byte) : Cipher := { c with table := c.table.write x v }

/-- `Swap(p, q)` (R13): both slots are read before either is written. -/
def Cipher.swap (c : Cipher) (p q : Byte) : Cipher :=
  let tp := c.t p
  let tq := c.t q
  (c.setT p tq).setT q tp

/-- `raise E_<NAME>` (R15, 60_exceptions.md R224): sets the sticky flag of the error and changes nothing else. -/
def State.raise (s : State) : Err → State
  | .illegal => { s with errIllegal := true }
  | .busy => { s with errBusy := true }
  | .invalid => { s with errInvalid := true }

/-- The commands that are accepted while VALID = 0 (10_state.md R27, 60_exceptions.md R222). -/
def legalWhileWiped : Instr → Bool
  | .nop | .init | .wipe => true
  | .absorb _ | .absorbStop | .flush | .final _ | .drip | .random32 | .crypt _ | .uniform | .update | .whip | .crush
  | .shuffle | .absorbNibble _ | .output => false

/-- Latches an accepted command word with the current ARG and sets BUSY (R222). -/
def State.latchCommand (s : State) (word : Word) : State :=
  { s with latch := some { word := word, bound := s.arg }, busy := true }

/-- The acceptance procedure of a CMD write (R222), its checks in the order E_BUSY, E_ILLEGAL, E_INVALID. -/
def State.accept (s : State) (word : Word) : State :=
  if s.busy then s.raise .busy
  else
    match decode s.build.primitives word with
    | .illegal _ => s.raise .illegal
    | .cmd i => if !s.valid && !legalWhileWiped i then s.raise .invalid else s.latchCommand word

/-- The command the Engine runs: the one LATCH holds (10_state.md R28). There is no other fetch (20_memory.md R62). -/
def State.fetch (s : State) : Option Instr :=
  match s.latch with
  | none => none
  | some l => (decode s.build.primitives l.word).instr?

/-- The end of every Engine step that completes a command with the new Cipher State `c`: LATCH and the temporaries are
cleared and BUSY falls, all at once (60_exceptions.md R222, 44_system.md R213, 20_memory.md R58). -/
def State.complete (s : State) (c : Cipher) : State :=
  { s with cipher := c, latch := none, busy := false, draw := none }

/-- The same, for a command that also writes RESULT (10_state.md R30). -/
def State.completeResult (s : State) (c : Cipher) (r : Word) : State :=
  { s.complete c with result := r }

/-- Hardware reset (70_reset_and_hazards.md R250, R252): the whole device state is replaced, whatever it was; what the
Host still has to do, what it has read and the schedule are not device state. -/
def State.hardReset (s : State) : State :=
  { State.resetOf s.build with program := s.program, reads := s.reads, schedule := s.schedule }

/-- Power loss (60_exceptions.md R235, 70_reset_and_hazards.md R251): from here to the next hardware reset the device
has no defined state. What the fields hold is not read before that reset replaces them all. -/
def State.losePower (s : State) : State := { s with resetDone := false }

end Sys2Proof.Machine
end

