-- ==== Sys2Proof/Machine/Operands.lean ====
section
/-! DEFINITION. Operand forms and packings: nibbles of a byte (00_scope.md R11), zero extension (30_encoding.md R72),
the latched bound (R73) and the little-endian packings of 20_memory.md R52. -/

namespace Sys2Proof.Machine

/-- `b[3:0] = b mod 16` (00_scope.md R11). -/
def lowNibble (b : Byte) : Nibble := b.extractLsb' 0 4

/-- `b[7:4] = b div 16` (00_scope.md R11). -/
def highNibble (b : Byte) : Nibble := b.extractLsb' 4 4

/-- `zext_32(b)` (30_encoding.md R72). -/
def zext32 (b : Byte) : Word := b.zeroExtend 32

/-- Four bytes in one word, the first in bits 7:0 (20_memory.md R52). -/
def packLE (b0 b1 b2 b3 : Byte) : Word :=
  zext32 b0 ||| (zext32 b1 <<< 8) ||| (zext32 b2 <<< 16) ||| (zext32 b3 <<< 24)

/-- CUR0: i, j, k, z from bit 0 up (10_state.md R37). -/
def Cipher.cur0 (c : Cipher) : Word := packLE c.i c.j c.k c.z

/-- CUR1: a in bits 7:0, w in bits 15:8, the rest 0 (10_state.md R38). -/
def Cipher.cur1 (c : Cipher) : Word := packLE c.a c.w 0 0

/-- TABLE[m]: slots 4m to 4m+3, the lowest in bits 7:0 (10_state.md R40). -/
def Cipher.tableWord (c : Cipher) (m : Nat) : Word :=
  packLE (c.t (BitVec.ofNat 8 (4 * m))) (c.t (BitVec.ofNat 8 (4 * m + 1))) (c.t (BitVec.ofNat 8 (4 * m + 2)))
    (c.t (BitVec.ofNat 8 (4 * m + 3)))

/-- CAPS: P_PRIMITIVES in bit 0, P_READBACK in bit 1 (10_state.md R39). -/
def capsWord (b : Build) : Word := (if b.primitives then 1 else 0) ||| (if b.readback then 2 else 0)

/-- The Cipher State a draw of UNIFORM starts from: the working copy of an unfinished loop, else E (43_protocol.md
R172). -/
def State.working (s : State) : Cipher :=
  match s.draw with
  | none => s.cipher
  | some c => c

end Sys2Proof.Machine
end

