-- ==== Sys2Proof/Machine/Engine.lean ====
section
/-! DEFINITION. The permutation engine: Reset, Update, Whip, Crush, Shuffle and the four primitive commands
(40_engine.md). A meaning is the Engine step of its command, after acceptance (60_exceptions.md R222). -/

namespace Sys2Proof.Machine

/-- `Reset(E)` (R100): reads nothing. -/
def Cipher.reset : Cipher := Cipher.resetValue

/-- `Update(E)` (R101): each line sees the values the lines before it wrote; the swap comes last. -/
def Cipher.update (c : Cipher) : Cipher :=
  let i := c.i + c.w
  let j := c.t (c.t i + c.j) + c.k
  let k := c.t j + c.k + i
  ({ c with i := i, j := j, k := k } : Cipher).swap i j

/-- `n` Updates in a row. -/
def Cipher.updates : Nat → Cipher → Cipher
  | 0, c => c
  | n + 1, c => (Cipher.updates n c).update

/-- `w <- w + 2`, the end of a whip (R102). -/
def Cipher.advanceStride (c : Cipher) : Cipher := { c with w := c.w + 2 }

/-- `Whip(E)` (R102): 512 updates, then the stride advances. Irreducible, so that no proof unfolds 512
updates by accident: rewrite with `Cipher.whip_eq` (Laws/Cipher.lean). -/
@[irreducible] def Cipher.whip (c : Cipher) : Cipher := (Cipher.updates 512 c).advanceStride

/-- One pair step of Crush at the local counter `v` (R103): both branches write both slots (R105). -/
def Cipher.crushPair (c : Cipher) (v : Nat) : Cipher :=
  let lo := BitVec.ofNat 8 v
  let hi := BitVec.ofNat 8 (255 - v)
  let p := c.t lo
  let q := c.t hi
  if q < p then (c.setT lo q).setT hi p else (c.setT lo p).setT hi q

/-- The pair steps `0` to `n - 1`, in this order. -/
def Cipher.crushPairs : Nat → Cipher → Cipher
  | 0, c => c
  | n + 1, c => (Cipher.crushPairs n c).crushPair n

/-- `Crush(E)` (R103): the 128 mirrored pairs; the counter is local, no cursor changes.
Irreducible, as `Cipher.whip` is: rewrite with `Cipher.crush_eq`. -/
@[irreducible] def Cipher.crush (c : Cipher) : Cipher := Cipher.crushPairs 128 c

/-- `a <- 0`. -/
def Cipher.clearCount (c : Cipher) : Cipher := { c with a := 0 }

/-- `Shuffle(E)` (R104). -/
def Cipher.shuffle (c : Cipher) : Cipher := c.whip.crush.whip.crush.whip.clearCount

/-- UPDATE (R110). -/
def execUpdate (s : State) : Host.Outcome State Fault Refusal := .next (s.complete s.cipher.update)

/-- WHIP (R111). -/
def execWhip (s : State) : Host.Outcome State Fault Refusal := .next (s.complete s.cipher.whip)

/-- CRUSH (R112). -/
def execCrush (s : State) : Host.Outcome State Fault Refusal := .next (s.complete s.cipher.crush)

/-- SHUFFLE (R113): whatever the value of a. -/
def execShuffle (s : State) : Host.Outcome State Fault Refusal := .next (s.complete s.cipher.shuffle)

end Sys2Proof.Machine
end

