-- ==== Sys2Proof/Machine/Absorb.lean ====
section
/-! DEFINITION. The absorption layer and its three commands (41_absorb.md). -/

namespace Sys2Proof.Machine

/-- The check at entry of every nibble step (R130, R132): at a = 128 the state is shuffled first. -/
def Cipher.makeRoom (c : Cipher) : Cipher := if c.a = 128 then c.shuffle else c

/-- `a <- a + 1`. -/
def Cipher.count (c : Cipher) : Cipher := { c with a := c.a + 1 }

/-- `AbsorbNibble(E, n)` (R130). -/
def Cipher.absorbNibble (c : Cipher) (n : Nibble) : Cipher :=
  let e := c.makeRoom
  (e.swap e.a (128 + n.zeroExtend 8)).count

/-- `AbsorbByte(E, b)` (R131): low nibble first. -/
def Cipher.absorbByte (c : Cipher) (b : Byte) : Cipher := (c.absorbNibble (lowNibble b)).absorbNibble (highNibble b)

/-- `AbsorbStop(E)` (R132): the counter steps in every case and no slot is swapped. -/
def Cipher.absorbStop (c : Cipher) : Cipher := c.makeRoom.count

/-- `AbsorbBytes(E, buf)` (R133): first byte first. -/
def Cipher.absorbBytes : Cipher → List Byte → Cipher
  | c, [] => c
  | c, b :: buf => (c.absorbByte b).absorbBytes buf

/-- ABSORB_NIBBLE n (R135). -/
def execAbsorbNibble (n : Nibble) (s : State) : Host.Outcome State Fault Refusal :=
  .next (s.complete (s.cipher.absorbNibble n))

/-- ABSORB b (R136). -/
def execAbsorb (b : Byte) (s : State) : Host.Outcome State Fault Refusal := .next (s.complete (s.cipher.absorbByte b))

/-- ABSORB_STOP (R137). -/
def execAbsorbStop (s : State) : Host.Outcome State Fault Refusal := .next (s.complete s.cipher.absorbStop)

end Sys2Proof.Machine
end

