-- ==== Sys2Proof/Machine/Extract.lean ====
section
/-! DEFINITION. The extraction layer and its two commands (42_extract.md). A primitive that returns a value answers
the new Cipher State and the value. -/

namespace Sys2Proof.Machine

/-- `z <- T[T[T[z + k] + i] + j]`, the state after Output (R150); the returned byte is the new z. -/
def Cipher.output (c : Cipher) : Cipher := { c with z := c.t (c.t (c.t (c.z + c.k) + c.i) + c.j) }

/-- Shuffle iff `a != 0`: the first line of Drip and of Squeeze, and all of FlushP (R151, R152, 43_protocol.md
R170). -/
def Cipher.flush (c : Cipher) : Cipher := if c.a = 0 then c else c.shuffle

/-- The state after `Drip(E)` (R151); the returned byte is its z. -/
def Cipher.dripped (c : Cipher) : Cipher := c.flush.update.output

/-- `Drip(E)` (R151): the new state and the keystream byte. -/
def Cipher.drip (c : Cipher) : Cipher × Byte := (c.dripped, c.dripped.z)

/-- `n` Drips: the state and the bytes in order. -/
def Cipher.drips : Nat → Cipher → Cipher × List Byte
  | 0, c => (c, [])
  | n + 1, c => ((Cipher.drips n c.dripped).1, c.dripped.z :: (Cipher.drips n c.dripped).2)

/-- `Squeeze(E, n)` (R152): flushes even when `n = 0`. -/
def Cipher.squeeze (c : Cipher) (n : Nat) : Cipher × List Byte := Cipher.drips n c.flush

/-- OUTPUT (R155): RESULT is the new z, zero-extended. -/
def execOutput (s : State) : Host.Outcome State Fault Refusal :=
  .next (s.completeResult s.cipher.output (zext32 s.cipher.output.z))

/-- DRIP (R156). -/
def execDrip (s : State) : Host.Outcome State Fault Refusal :=
  .next (s.completeResult s.cipher.drip.1 (zext32 s.cipher.drip.2))

end Sys2Proof.Machine
end

