-- ==== Sys2Proof/Machine/Protocol.lean ====
section
/-! DEFINITION. The protocol primitives and their six commands (43_protocol.md). -/

namespace Sys2Proof.Machine

/-- The state after `Random32(E)` (R171): four drips. -/
def Cipher.random32State (c : Cipher) : Cipher := c.dripped.dripped.dripped.dripped

/-- The value of `Random32(E)` (R171): the first drip is least significant. -/
def Cipher.random32Value (c : Cipher) : Word :=
  packLE c.dripped.z c.dripped.dripped.z c.dripped.dripped.dripped.z c.dripped.dripped.dripped.dripped.z

/-- `Random32(E)` (R171). -/
def Cipher.random32 (c : Cipher) : Cipher × Word := (c.random32State, c.random32Value)

/-- `min <- (2^32 - bound) mod bound`, exact (R172). -/
def uniformMin (bound : Word) : Nat := (2 ^ 32 - bound.toNat) % bound.toNat

/-- A draw that ends the rejection loop: `r >= min` (R172). -/
def uniformAccepts (bound r : Word) : Bool := decide (uniformMin bound ≤ r.toNat)

/-- One pass of Uniform's loop (R172): the state after the draw, and the value where the draw ends the loop. -/
def Cipher.uniformPass (c : Cipher) (bound : Word) : Cipher × Option Word :=
  (c.random32.1, if uniformAccepts bound c.random32.2 then some (c.random32.2 % bound) else none)

/-- Uniform's loop (R172) in at most `fuel` passes; `none` where it has not ended by then. -/
def Cipher.uniformLoop (bound : Word) : Nat → Cipher → Option (Cipher × Word)
  | 0, _ => none
  | fuel + 1, c =>
    match (c.uniformPass bound).2 with
    | some r => some ((c.uniformPass bound).1, r)
    | none => Cipher.uniformLoop bound fuel (c.uniformPass bound).1

/-- `Uniform(E, bound)` (R172): the new state and the value, `none` where the loop takes more than `fuel` draws. R172
bounds the loop by no number, so `fuel` is no limit of the machine: any two answers agree (`Cipher.uniform_unique`), and a
loop that never ends has none. -/
def Cipher.uniform (c : Cipher) (bound : Word) (fuel : Nat) : Option (Cipher × Word) :=
  if bound < 2 then some (c, 0) else Cipher.uniformLoop bound fuel c

/-- `FinalP(E, len)` (R173): the stop, then the length byte. -/
def Cipher.finalP (c : Cipher) (len : Byte) : Cipher := c.absorbStop.absorbByte len

/-- `crypt(data)`, byte by byte (R184, R194): the state and the output bytes in order. -/
def Cipher.cryptBytes : Cipher → List Byte → Cipher × List Byte
  | c, [] => (c, [])
  | c, d :: data => ((c.drip.1.cryptBytes data).1, (d ^^^ c.drip.2) :: (c.drip.1.cryptBytes data).2)

/-- INIT (R180): ARG and the error flags stay. -/
def execInit (s : State) : Host.Outcome State Fault Refusal :=
  .next { s.completeResult Cipher.reset 0 with valid := true }

/-- FLUSH (R181): FlushP (R170). -/
def execFlush (s : State) : Host.Outcome State Fault Refusal := .next (s.complete s.cipher.flush)

/-- FINAL len (R182). -/
def execFinal (len : Byte) (s : State) : Host.Outcome State Fault Refusal := .next (s.complete (s.cipher.finalP len))

/-- RANDOM32 (R183). -/
def execRandom32 (s : State) : Host.Outcome State Fault Refusal :=
  .next (s.completeResult s.cipher.random32.1 s.cipher.random32.2)

/-- CRYPT b (R184). -/
def execCrypt (b : Byte) (s : State) : Host.Outcome State Fault Refusal :=
  .next (s.completeResult s.cipher.drip.1 (zext32 (b ^^^ s.cipher.drip.2)))

/-- One pass of UNIFORM's loop from the working copy `c`, on the device: the pass that ends the loop completes the
command with its value; any other changes the working copy only, and BUSY stays 1 (R172, 60_exceptions.md R236). -/
def State.uniformPass (s : State) (c : Cipher) (bound : Word) : State :=
  match (c.uniformPass bound).2 with
  | some r => s.completeResult (c.uniformPass bound).1 r
  | none => { s with draw := some (c.uniformPass bound).1 }

/-- UNIFORM (R185) on the latched bound. The loop has no iteration bound (R172), so one Engine turn is one pass of it:
E, RESULT and BUSY change in the turn whose draw is accepted, all at once (20_memory.md R58), and a loop that never
accepts leaves BUSY at 1 for ever (60_exceptions.md R236). See log entry 2. -/
def execUniform (s : State) : Host.Outcome State Fault Refusal :=
  match s.latch with
  | none => .fault .noCommandLatched
  | some l => if l.bound < 2 then .next (s.completeResult s.cipher 0) else .next (s.uniformPass s.working l.bound)

end Sys2Proof.Machine
end

