-- ==== Sys2Proof/Machine/System.lean ====
section
/-! DEFINITION. NOP and WIPE (44_system.md). -/

namespace Sys2Proof.Machine

/-- The table with every slot 0 (R211). Irreducible, so that no proof unfolds 256 writes by accident: its reads are in
Laws/Cipher.lean. -/
@[irreducible] def Memory.zeros : Memory := Memory.tabulate (fun _ => 0) 256

/-- The wiped Cipher State (R211): every slot of the table and every cursor is 0. -/
def Cipher.wiped : Cipher :=
  { table := Memory.zeros, i := 0, j := 0, k := 0, z := 0, a := 0, w := 0 }

/-- NOP (R210): only BUSY and LATCH, which acceptance set, are cleared. -/
def execNop (s : State) : Host.Outcome State Fault Refusal := .next (s.complete s.cipher)

/-- WIPE (R211, R212): nothing of the Cipher State, RESULT, ARG or LATCH before it remains; the error flags stay. -/
def execWipe (s : State) : Host.Outcome State Fault Refusal :=
  .next { s.completeResult Cipher.wiped 0 with arg := 0, valid := false }

end Sys2Proof.Machine
end

