-- ==== Sys2Proof/Machine/Dispatch.lean ====
section
/-! DEFINITION. What each command does in its Engine step: one arm per constructor of Instr. -/

namespace Sys2Proof.Machine

def exec (i : Instr) (s : State) : Host.Outcome State Fault Refusal :=
  match i with
  | .nop => Sys2Proof.Machine.execNop s
  | .init => Sys2Proof.Machine.execInit s
  | .absorb b => Sys2Proof.Machine.execAbsorb b s
  | .absorbStop => Sys2Proof.Machine.execAbsorbStop s
  | .flush => Sys2Proof.Machine.execFlush s
  | .final len => Sys2Proof.Machine.execFinal len s
  | .drip => Sys2Proof.Machine.execDrip s
  | .random32 => Sys2Proof.Machine.execRandom32 s
  | .crypt b => Sys2Proof.Machine.execCrypt b s
  | .uniform => Sys2Proof.Machine.execUniform s
  | .wipe => Sys2Proof.Machine.execWipe s
  | .update => Sys2Proof.Machine.execUpdate s
  | .whip => Sys2Proof.Machine.execWhip s
  | .crush => Sys2Proof.Machine.execCrush s
  | .shuffle => Sys2Proof.Machine.execShuffle s
  | .absorbNibble n => Sys2Proof.Machine.execAbsorbNibble n s
  | .output => Sys2Proof.Machine.execOutput s

end Sys2Proof.Machine
end

