-- ==== Sys2Proof/Machine/Flags.lean ====
section
/-! DEFINITION. The STATUS register: its word and its write-one-to-clear bits (10_state.md R34). -/

namespace Sys2Proof.Machine

/-- A flag at a bit of a word. -/
def flagBit (b : Bool) (n : Nat) : Word := if b then (1 : Word) <<< n else 0

/-- STATUS as a read returns it: BUSY in bit 0, VALID in bit 1, the error flags in bits 8 to 10, the rest 0 (R34). -/
def State.statusWord (s : State) : Word :=
  flagBit s.busy 0 ||| flagBit s.valid 1 ||| flagBit s.errIllegal 8 ||| flagBit s.errBusy 9
    ||| flagBit s.errInvalid 10

/-- A STATUS write: a 1 in bit 8, 9 or 10 clears that flag, a 0 leaves it; no other bit acts, BUSY or not (R34). -/
def State.clearErrors (s : State) (v : Word) : State :=
  { s with
    errIllegal := s.errIllegal && !v.getLsbD 8
    errBusy := s.errBusy && !v.getLsbD 9
    errInvalid := s.errInvalid && !v.getLsbD 10 }

end Sys2Proof.Machine
end

