-- ==== Sys2Proof/Machine/Registers.lean ====
section
/-! DEFINITION. The register block as the Host sees it (10_state.md R32 to R41, 20_memory.md R53, R55). -/

namespace Sys2Proof.Machine

/-- The offset of CMD (R32). -/
def offCmd : Nat := 0x000
/-- The offset of STATUS (R32). -/
def offStatus : Nat := 0x004
/-- The offset of ARG (R32). -/
def offArg : Nat := 0x008
/-- The offset of RESULT (R32). -/
def offResult : Nat := 0x00C
/-- The offset of CUR0 (R32). -/
def offCur0 : Nat := 0x010
/-- The offset of CUR1 (R32). -/
def offCur1 : Nat := 0x014
/-- The offset of CAPS (R32). -/
def offCaps : Nat := 0x018
/-- The offset of TABLE[0] (R32). -/
def offTable : Nat := 0x100
/-- The first offset outside the SPE (R32, R41). -/
def offEnd : Nat := 0x200

/-- The Cipher State is visible: `P_READBACK = true` and BUSY = 0 (R37, R38, R40). -/
def State.visible (s : State) : Bool := s.build.readback && !s.busy

/-- `RegRead(off)` of an aligned word inside the block: the value, with no side effect (R33 to R41, 20_memory.md
R55). -/
def State.regRead (s : State) (off : Nat) : Word :=
  if off = offCmd then 0
  else if off = offStatus then s.statusWord
  else if off = offArg then s.arg
  else if off = offResult then (if s.busy then 0 else s.result)
  else if off = offCur0 then (if s.visible then s.cipher.cur0 else 0)
  else if off = offCur1 then (if s.visible then s.cipher.cur1 else 0)
  else if off = offCaps then capsWord s.build
  else if off < offTable then 0
  else if s.visible then s.cipher.tableWord ((off - offTable) / 4) else 0

/-- A write of ARG: dropped with E_BUSY while BUSY = 1 (R35, 60_exceptions.md R223). -/
def State.writeArg (s : State) (v : Word) : State := if s.busy then s.raise .busy else { s with arg := v }

/-- `RegWrite(off, v)` of an aligned word inside the block; a write to a read-only or unmapped offset is ignored
(R33 to R41, 20_memory.md R55). -/
def State.regWrite (s : State) (off : Nat) (v : Word) : State :=
  if off = offCmd then s.accept v
  else if off = offStatus then s.clearErrors v
  else if off = offArg then s.writeArg v
  else s

/-- What a Host access is before it reaches a register (20_memory.md R53, 10_state.md R41). -/
inductive AccessCheck where
  /-- An aligned 32-bit word inside the block. -/
  | inside
  /-- An offset at or beyond 0x200. -/
  | outside
  /-- Inside the block, but not an aligned 32-bit word. -/
  | notWord
deriving DecidableEq, Repr

/-- Sorts a Host access: first whether its offset lies in the block, then whether it is an aligned word. -/
def checkAccess (w : Width) (off : Nat) : AccessCheck :=
  if offEnd ≤ off then .outside
  else if w = .word ∧ off % 4 = 0 then .inside
  else .notWord

end Sys2Proof.Machine
end

