-- ==== Sys2Proof/Machine/Agents.lean ====
section
/-! DEFINITION. The turns of the agents (00_scope.md R10): a Host access, an Engine step, hardware reset, power loss. -/

namespace Sys2Proof.Machine

/-- The Host's turn done: `op` is off its list. -/
def State.hostDone (s : State) (rest : List HostOp) : State := { s with program := rest }

/-- Keeps the value that an `RD` line returned. -/
def State.keepRead (s : State) (v : Word) : State := { s with reads := s.reads ++ [v] }

/-- One Host access at a time, in the order the Host issues them (20_memory.md R59). A `WAIT` reads STATUS and stays
while BUSY reads 1 (30_encoding.md R81). A Host with nothing to do leaves everything as it is: the SPE waits for a CMD
write (70_reset_and_hazards.md R253). Before the first hardware reset an access is refused (R251). -/
def State.hostTurn (s : State) : Host.Outcome State Fault Refusal :=
  match s.program with
  | [] => .next s
  | op :: rest =>
    if !s.resetDone then .refused .beforeHardwareReset
    else
      match op with
      | .wait => if (s.regRead offStatus).getLsbD 0 then .next s else .next (s.hostDone rest)
      | .read w off =>
        match checkAccess w off with
        | .outside => .fault .outsideRegisterSpace
        | .notWord => .refused .notAlignedWord
        | .inside => .next ((s.hostDone rest).keepRead (s.regRead off))
      | .write w off v =>
        match checkAccess w off with
        | .outside => .fault .outsideRegisterSpace
        | .notWord => .refused .notAlignedWord
        | .inside => .next ((s.regWrite off v).hostDone rest)

/-- The Engine's turn: it has a step only while BUSY = 1, and then runs the latched command (60_exceptions.md R222). -/
def State.engineTurn (s : State) : Host.Outcome State Fault Refusal :=
  if !s.resetDone then .refused .beforeHardwareReset
  else if s.busy then
    match s.fetch with
    | none => .fault .noCommandLatched
    | some i => exec i s
  else .next s

/-- One turn of an agent. -/
def State.runTurn (s : State) : Turn → Host.Outcome State Fault Refusal
  | .host => s.hostTurn
  | .engine => s.engineTurn
  | .hardReset => .next s.hardReset
  | .powerLoss => .next s.losePower

/-- Who moves when the schedule is empty: the Engine while it has a step, else the Host (log entry 3). -/
def State.defaultTurn (s : State) : Turn := if s.busy && s.resetDone then .engine else .host

/-- The schedule's next turn taken off it. -/
def State.dropTurn (s : State) (rest : List Turn) : State := { s with schedule := rest }

/-- One transition of the system: the schedule's next agent moves. -/
def State.nextTurn (s : State) : Host.Outcome State Fault Refusal :=
  match s.schedule with
  | [] => s.runTurn s.defaultTurn
  | t :: rest => (s.dropTurn rest).runTurn t

/-- A command word latched as an accepted CMD write leaves it, the Engine to move next (log entry 6). -/
def State.loadCommand (s : State) (word : Word) : State :=
  { s with latch := some { word := word, bound := s.arg }, busy := true, draw := none, resetDone := true,
           schedule := .engine :: s.schedule }

end Sys2Proof.Machine
end

