-- ==== Sys2Proof/Machine/Step.lean ====
section
/-! DEFINITION. One step of the system: one turn of one agent (00_scope.md R10). -/

namespace Sys2Proof.Machine

/-- One step: the next agent's turn. -/
def step (s : State) : Host.Outcome State Fault Refusal := s.nextTurn

/-- The host's entry: `s` with the command word `w` latched, so that the very next step is its Engine step. A command
is one 32-bit word (30_encoding.md R70), so `nbits` does not matter. -/
def State.withFetchWord (s : State) (_nbits w : Nat) : State := s.loadCommand (BitVec.ofNat 32 w)

end Sys2Proof.Machine
end

