-- ==== Sys2Proof/Machine/Platform.lean ====
section
/-! DEFINITION. A platform: P_INSTANCES instances of the SPE, each at its own P_BASE (00_scope.md R8, R9; 20_memory.md
R51; 60_exceptions.md R232). -/

namespace Sys2Proof.Machine

/-- One instance at the bus address of its register offset 0x000 (00_scope.md R9). -/
structure Placed where
  /-- `P_BASE` of this instance. -/
  base : Nat
  /-- The instance and the Host's work on it. -/
  dev : State
deriving DecidableEq, Repr

/-- The instances of a platform; its length is `P_INSTANCES` (00_scope.md R8). -/
abbrev Platform := List Placed

/-- A bus address lies in the 512 bytes of an instance (10_state.md R32). -/
def Placed.covers (p : Placed) (addr : Nat) : Bool := decide (p.base ≤ addr ∧ addr < p.base + offEnd)

/-- No bus address lies in two instances. -/
def Platform.disjoint (p : Platform) : Prop :=
  p.Pairwise fun x y => x.base + offEnd ≤ y.base ∨ y.base + offEnd ≤ x.base

/-- The instance a bus address belongs to, and the register offset it means there (00_scope.md R9). DESIGN CHOICE (log
entry 15): where the blocks of two instances overlap, which the spec neither forbids nor settles, an address in both means
the first of them in the list. -/
def Platform.route : Platform → Nat → Option (Nat × Nat)
  | [], _ => none
  | x :: p, addr =>
    if x.covers addr then some (0, addr - x.base)
    else
      match Platform.route p addr with
      | none => none
      | some r => some (r.1 + 1, r.2)

/-- One step of instance `n`; the other instances do not move and share nothing with it (60_exceptions.md R232). -/
def Platform.stepAt (p : Platform) (n : Nat) : Host.Outcome Platform Fault Refusal :=
  match p[n]? with
  | none => .next p
  | some x =>
    match step x.dev with
    | .next t => .next (p.set n { x with dev := t })
    | .fault f => .fault f
    | .refused r => .refused r

end Sys2Proof.Machine
end

