-- ==== Sys2Proof/Machine/HostSequences.lean ====
section
/-! DEFINITION. Command lines, Host lines and pseudo-instructions as Host sequences (30_encoding.md R80 to R82,
41_absorb.md R133, 42_extract.md R157, 43_protocol.md R190 to R204, 44_system.md R211), and a program listing of such
lines. A listing is modelled by its lines, not by the spelling of their operands and comments (R80): a byte written `65`,
`0x41` or `'A'` is the same line. -/

namespace Sys2Proof.Machine

/-- A command line prefixed `nowait`: the CMD write alone (R80). -/
def lineNowait (i : Instr) : List HostOp := [.write .word offCmd (encode i)]

/-- A command line: the CMD write, then WAIT (R80). -/
def lineCmd (i : Instr) : List HostOp := lineNowait i ++ [.wait]

/-- `ARG v` (R81). -/
def lineArg (v : Word) : List HostOp := [.write .word offArg v]

/-- `CLR v` (R81). -/
def lineClr (v : Word) : List HostOp := [.write .word offStatus v]

/-- `RD name`, by the register's offset (R81). -/
def lineRd (off : Nat) : List HostOp := [.read .word off]

/-- `RD RESULT` (R81). -/
def lineRdResult : List HostOp := lineRd offResult

/-- The offset of TABLE[m] (10_state.md R40). -/
def offTableWord (m : Nat) : Nat := offTable + 4 * m

/-- `n` times the same lines. -/
def repeatLines (lines : List HostOp) : Nat → List HostOp
  | 0 => []
  | n + 1 => lines ++ repeatLines lines n

/-- `ABSORB_BYTES b0,...,bn-1` (41_absorb.md R133). -/
def absorbBytesLines : List Byte → List HostOp
  | [] => []
  | b :: buf => lineCmd (.absorb b) ++ absorbBytesLines buf

/-- `SQUEEZE n` (42_extract.md R157). -/
def squeezeLines (n : Nat) : List HostOp := lineCmd .flush ++ repeatLines (lineCmd .drip ++ lineRdResult) n

/-- `SETUP key` (43_protocol.md R190). -/
def setupLines (key : List Byte) : List HostOp := lineCmd .init ++ absorbBytesLines key ++ lineCmd .flush

/-- `SETUP_IV key, nonce` (43_protocol.md R191). -/
def setupIVLines (key nonce : List Byte) : List HostOp :=
  setupLines key ++ lineCmd .absorbStop ++ absorbBytesLines nonce ++ lineCmd .flush

/-- `RANDOM_BYTE` (43_protocol.md R192). -/
def randomByteLines : List HostOp := lineCmd .drip ++ lineRdResult

/-- `RANDOM_32` (43_protocol.md R193). -/
def random32Lines : List HostOp := lineCmd .random32 ++ lineRdResult

/-- `CRYPT_BUF d0,...,dn-1` (43_protocol.md R194). -/
def cryptBufLines : List Byte → List HostOp
  | [] => []
  | d :: buf => lineCmd (.crypt d) ++ lineRdResult ++ cryptBufLines buf

/-- `ADD_ENTROPY b0,...,bn-1` (43_protocol.md R195). -/
def addEntropyLines (buf : List Byte) : List HostOp := absorbBytesLines buf

/-- `UNIFORM_DRAW bound` (43_protocol.md R196). -/
def uniformDrawLines (bound : Word) : List HostOp := lineArg bound ++ lineCmd .uniform ++ lineRdResult

/-- `HASH_INIT` (43_protocol.md R197). -/
def hashInitLines : List HostOp := lineCmd .init

/-- `HASH_UPDATE chunk` (43_protocol.md R198). -/
def hashUpdateLines (chunk : List Byte) : List HostOp := absorbBytesLines chunk

/-- `HASH_FINAL n` (43_protocol.md R199). -/
def hashFinalLines (n : Byte) : List HostOp := lineCmd (.final n) ++ squeezeLines n.toNat

/-- `HASH data, n` (43_protocol.md R200). -/
def hashLines (data : List Byte) (n : Byte) : List HostOp := hashInitLines ++ hashUpdateLines data ++ hashFinalLines n

/-- `MAC_INIT key` (43_protocol.md R201). -/
def macInitLines (key : List Byte) : List HostOp := lineCmd .init ++ absorbBytesLines key ++ lineCmd .absorbStop

/-- `MAC_UPDATE msg` (43_protocol.md R202). -/
def macUpdateLines (msg : List Byte) : List HostOp := hashUpdateLines msg

/-- `MAC_FINAL n` (43_protocol.md R203). -/
def macFinalLines (n : Byte) : List HostOp := hashFinalLines n

/-- `MAC msg, key, n` (43_protocol.md R204): the key first. -/
def macLines (msg key : List Byte) (n : Byte) : List HostOp := macInitLines key ++ macUpdateLines msg ++ macFinalLines n

/-- `WIPE_STATE` (44_system.md R211). -/
def wipeStateLines : List HostOp := lineCmd .wipe

/-- What a Host does first after hardware reset (70_reset_and_hazards.md R254): read CAPS, then INIT. -/
def bootLines : List HostOp := lineRd offCaps ++ lineCmd .init

/-- The mnemonic a command line begins with (30_encoding.md R74, R80). -/
def mnemonicOf : Instr → String
  | .nop => "NOP"
  | .init => "INIT"
  | .absorb _ => "ABSORB"
  | .absorbStop => "ABSORB_STOP"
  | .flush => "FLUSH"
  | .final _ => "FINAL"
  | .drip => "DRIP"
  | .random32 => "RANDOM32"
  | .crypt _ => "CRYPT"
  | .uniform => "UNIFORM"
  | .wipe => "WIPE"
  | .update => "UPDATE"
  | .whip => "WHIP"
  | .crush => "CRUSH"
  | .shuffle => "SHUFFLE"
  | .absorbNibble _ => "ABSORB_NIBBLE"
  | .output => "OUTPUT"

/-- The registers an `RD` line names (R81). -/
inductive RegName where
  | status
  | arg
  | result
  | cur0
  | cur1
  | caps
  | table (m : Fin 64)
deriving DecidableEq, Repr

/-- The offset of a named register (10_state.md R32). -/
def regOffset : RegName → Nat
  | .status => offStatus
  | .arg => offArg
  | .result => offResult
  | .cur0 => offCur0
  | .cur1 => offCur1
  | .caps => offCaps
  | .table m => offTableWord m.val

/-- The pseudo-instructions (R82). -/
inductive Pseudo where
  | absorbBytes (buf : List Byte)
  | squeeze (n : Nat)
  | setup (key : List Byte)
  | setupIV (key nonce : List Byte)
  | randomByte
  | random32
  | cryptBuf (data : List Byte)
  | addEntropy (buf : List Byte)
  | uniformDraw (bound : Word)
  | hashInit
  | hashUpdate (chunk : List Byte)
  | hashFinal (n : Byte)
  | hash (data : List Byte) (n : Byte)
  | macInit (key : List Byte)
  | macUpdate (msg : List Byte)
  | macFinal (n : Byte)
  | mac (msg key : List Byte) (n : Byte)
  | wipeState
deriving DecidableEq, Repr

/-- The Host sequence of a pseudo-instruction, by the rule R82 names for it. -/
def pseudoLines : Pseudo → List HostOp
  | .absorbBytes buf => absorbBytesLines buf
  | .squeeze n => squeezeLines n
  | .setup key => setupLines key
  | .setupIV key nonce => setupIVLines key nonce
  | .randomByte => randomByteLines
  | .random32 => random32Lines
  | .cryptBuf data => cryptBufLines data
  | .addEntropy buf => addEntropyLines buf
  | .uniformDraw bound => uniformDrawLines bound
  | .hashInit => hashInitLines
  | .hashUpdate chunk => hashUpdateLines chunk
  | .hashFinal n => hashFinalLines n
  | .hash data n => hashLines data n
  | .macInit key => macInitLines key
  | .macUpdate msg => macUpdateLines msg
  | .macFinal n => macFinalLines n
  | .mac msg key n => macLines msg key n
  | .wipeState => wipeStateLines

/-- One line of a program listing (R80, R81, R82). -/
inductive ListingLine where
  /-- `MNEMONIC [operand]`: the CMD write, then WAIT. -/
  | command (i : Instr)
  /-- The same, prefixed `nowait`. -/
  | nowait (i : Instr)
  /-- `ARG v`. -/
  | arg (v : Word)
  /-- `CLR v`. -/
  | clr (v : Word)
  /-- `RD name`. -/
  | rd (name : RegName)
  /-- `WAIT`. -/
  | wait
  /-- A pseudo-instruction. -/
  | pseudo (p : Pseudo)
deriving DecidableEq, Repr

/-- The Host operations of a line. -/
def listingLineOps : ListingLine → List HostOp
  | .command i => lineCmd i
  | .nowait i => lineNowait i
  | .arg v => lineArg v
  | .clr v => lineClr v
  | .rd name => lineRd (regOffset name)
  | .wait => [.wait]
  | .pseudo p => pseudoLines p

/-- The Host operations of a program listing, line by line. -/
def listingOps : List ListingLine → List HostOp
  | [] => []
  | x :: xs => listingLineOps x ++ listingOps xs

end Sys2Proof.Machine
end

