-- ==== Sys2Proof/Safety.lean ====
section
/-! DEFINITION. What counts as a safe state and a safe run: the invariants of 10_state.md R24 to R28, the error check of
70_reset_and_hazards.md R258, reachability, and the protocol discipline that 43_protocol.md R205 asks of the Host. -/

namespace Sys2Proof.Machine

/-- T is a bijection on {0..255}: each value occurs in exactly one slot (R24). -/
def Cipher.Permutation (c : Cipher) : Prop := ∀ v : Byte, ∃ x : Byte, c.t x = v ∧ ∀ y : Byte, c.t y = v → y = x

/-- `w` is odd (R25). -/
def Cipher.StrideOdd (c : Cipher) : Prop := c.w.toNat % 2 = 1

/-- `0 <= a <= 128` (R26). -/
def Cipher.CountInRange (c : Cipher) : Prop := c.a.toNat ≤ 128

/-- A live Cipher State: canonical table, bijection, odd stride, counter in range (R24, R25, R26). -/
structure Cipher.Live (c : Cipher) : Prop where
  tableWf : c.table.wf = true
  permutation : c.Permutation
  strideOdd : c.StrideOdd
  countInRange : c.CountInRange

/-- The Cipher State after `n` draws of Random32. -/
def Cipher.draws : Nat → Cipher → Cipher
  | 0, c => c
  | n + 1, c => (Cipher.draws n c).random32.1

/-- The value of draw number `n`, counted from 0. -/
def Cipher.drawValue (c : Cipher) (n : Nat) : Word := (Cipher.draws n c).random32.2

/-- UNIFORM's loop rejects the first `n` draws (43_protocol.md R172). -/
def Cipher.RejectsFirst (c : Cipher) (bound : Word) (n : Nat) : Prop :=
  ∀ m < n, uniformAccepts bound (c.drawValue m) = false

/-- UNIFORM's loop ends at draw `n`: it rejects the draws before it and accepts this one (43_protocol.md R172). -/
def Cipher.LoopEndsAt (c : Cipher) (bound : Word) (n : Nat) : Prop :=
  c.RejectsFirst bound n ∧ uniformAccepts bound (c.drawValue n) = true

/-- The working copy of a UNIFORM in progress is E after some rejected draws (43_protocol.md R172). -/
def State.DrawInProgress (s : State) (c : Cipher) : Prop :=
  ∃ l n, s.latch = some l ∧ decode s.build.primitives l.word = .cmd .uniform ∧ 2 ≤ l.bound.toNat ∧
    c = Cipher.draws n s.cipher ∧ s.cipher.RejectsFirst l.bound n

/-- The invariant of every state of a run. -/
structure State.Inv (s : State) : Prop where
  /-- The table keeps its canonical form. -/
  tableWf : s.cipher.table.wf = true
  /-- R26. -/
  countInRange : s.cipher.CountInRange
  /-- R24, for live states. -/
  livePermutation : s.valid = true → s.cipher.Permutation
  /-- R25, for live states. -/
  liveStride : s.valid = true → s.cipher.StrideOdd
  /-- R28: BUSY exactly while a command is latched. -/
  busyIffLatched : s.busy = s.latch.isSome
  /-- R222: a latched word is a legal command, and a wiped state runs NOP, INIT and WIPE only. -/
  latchedLegal : ∀ l, s.latch = some l →
    ∃ i, decode s.build.primitives l.word = .cmd i ∧ (s.valid = true ∨ legalWhileWiped i = true)
  /-- The working copy belongs to a UNIFORM that is running. -/
  drawOfUniform : ∀ c, s.draw = some c → s.DrawInProgress c

/-- No error flag is set: what a Host checks at the end of an operation (70_reset_and_hazards.md R258). -/
def State.noError (s : State) : Bool := !s.errIllegal && !s.errBusy && !s.errInvalid

/-- Some number of steps leads from `s` to `t`. -/
def Reaches (s t : State) : Prop := ∃ k, Host.Core.run Sys2Proof.core k s = .next t

/-- Neither hardware reset nor power loss is scheduled: only Host and Engine move, in any order (00_scope.md R10). -/
def State.Interleaving (s : State) : Prop := ∀ t ∈ s.schedule, t = .host ∨ t = .engine

/-- The commands that write RESULT (10_state.md R30). -/
def writesResult : Instr → Bool
  | .drip | .crypt _ | .output | .random32 | .uniform | .init | .wipe => true
  | .nop | .absorb _ | .absorbStop | .flush | .final _ | .update | .whip | .crush | .shuffle | .absorbNibble _ => false

/-- The agent whose turn the next step is. -/
def State.mover (s : State) : Turn :=
  match s.schedule with
  | [] => s.defaultTurn
  | t :: _ => t

/-- The next step is a Host access `op`, with `rest` to do after it. -/
structure State.HostMoves (s : State) (op : HostOp) (rest : List HostOp) (later : List Turn) : Prop where
  schedule : s.schedule = .host :: later
  program : s.program = op :: rest
  resetDone : s.resetDone = true

/-- What every completed command but INIT and WIPE leaves of the device state besides E and RESULT: BUSY, LATCH and the
working copy are cleared (60_exceptions.md R222), everything else is as before. -/
structure State.CommandFrame (s t : State) : Prop where
  busy : t.busy = false
  latch : t.latch = none
  draw : t.draw = none
  valid : t.valid = s.valid
  arg : t.arg = s.arg
  errIllegal : t.errIllegal = s.errIllegal
  errBusy : t.errBusy = s.errBusy
  errInvalid : t.errInvalid = s.errInvalid
  build : t.build = s.build
  resetDone : t.resetDone = s.resetDone
  program : t.program = s.program
  reads : t.reads = s.reads
  schedule : t.schedule = s.schedule

/-- A nibble step of 41_absorb.md R138: an AbsorbNibble or an AbsorbStop; an ABSORB counts as two. -/
inductive NibbleStep where
  | nibble (n : Nibble)
  | stop
deriving DecidableEq, Repr

/-- One nibble step. -/
def Cipher.nibbleStep (c : Cipher) : NibbleStep → Cipher
  | .nibble n => c.absorbNibble n
  | .stop => c.absorbStop

/-- A sequence of nibble steps, first to last. -/
def Cipher.nibbleSteps : Cipher → List NibbleStep → Cipher
  | c, [] => c
  | c, x :: xs => (c.nibbleStep x).nibbleSteps xs

/-- How many shuffles a sequence of nibble steps triggers: one at each step that starts at a = 128. -/
def Cipher.shufflesIn : Cipher → List NibbleStep → Nat
  | _, [] => 0
  | c, x :: xs => (if c.a = 128 then 1 else 0) + (c.nibbleStep x).shufflesIn xs

/-- A Host about to issue `lines` to an idle device, live or wiped, with `rest` after them, the turns in any order. -/
structure State.HostIdle (s : State) (lines rest : List HostOp) : Prop where
  resetDone : s.resetDone = true
  idle : s.busy = false
  anyOrder : s.Interleaving
  program : s.program = lines ++ rest

/-- The same, with a live device. -/
structure State.HostReady (s : State) (lines rest : List HostOp) : Prop extends s.HostIdle lines rest where
  live : s.valid = true

/-- The run from `s` comes to a state `t` where the lines are done: the device is idle and live with the Cipher State
`c`, the Host has read `out`, no error was raised and ARG is as before. -/
structure State.HostFinishes (s t : State) (rest : List HostOp) (c : Cipher) (out : List Word) : Prop where
  reached : Reaches s t
  resetDone : t.resetDone = true
  idle : t.busy = false
  live : t.valid = true
  anyOrder : t.Interleaving
  program : t.program = rest
  cipher : t.cipher = c
  reads : t.reads = s.reads ++ out
  arg : t.arg = s.arg
  errIllegal : t.errIllegal = s.errIllegal
  errBusy : t.errBusy = s.errBusy
  errInvalid : t.errInvalid = s.errInvalid
  build : t.build = s.build

/-- The DOC's operations as the Host issues them (30_encoding.md R82), with INIT and WIPE. -/
inductive DocOp where
  | init
  | wipe
  | setup (key : List Byte)
  | setupIV (key nonce : List Byte)
  | randomByte
  | random32
  | cryptBuf (data : List Byte)
  | addEntropy (buf : List Byte)
  | uniformDraw (bound : Word)
  | hashInit
  | hashUpdate (chunk : List Byte)
  | hashFinal (n : Byte)
  | macInit (key : List Byte)
  | macUpdate (msg : List Byte)
  | macFinal (n : Byte)
deriving DecidableEq, Repr

/-- The Host lines of an operation (30_encoding.md R82). -/
def DocOp.lines : DocOp → List HostOp
  | .init => lineCmd .init
  | .wipe => wipeStateLines
  | .setup key => setupLines key
  | .setupIV key nonce => setupIVLines key nonce
  | .randomByte => randomByteLines
  | .random32 => random32Lines
  | .cryptBuf data => cryptBufLines data
  | .addEntropy buf => addEntropyLines buf
  | .uniformDraw bound => uniformDrawLines bound
  | .hashInit => hashInitLines
  | .hashUpdate chunk => hashUpdateLines chunk
  | .hashFinal n => hashFinalLines n
  | .macInit key => macInitLines key
  | .macUpdate msg => macUpdateLines msg
  | .macFinal n => macFinalLines n

/-- The phases of 43_protocol.md R205, a Host discipline and no hardware state (10_state.md R46); `wiped` stands between
WIPE and the INIT that must follow it. -/
inductive Phase where
  | uninitialized
  | keyed
  | streaming
  | absorbing
  | finalized
  | wiped
deriving DecidableEq, Repr

/-- The phase after an operation, `none` where the Host may not issue it (43_protocol.md R205; log entry 8).
DESIGN CHOICE (log entry 16), where R205's table is open: an operation that itself begins with INIT (SETUP, SETUP_IV,
HASH_INIT, MAC_INIT) needs a separate INIT first outside Uninitialized; an empty CRYPT_BUF and a UNIFORM_DRAW that draws
nothing count as the first extraction; and the HASH and MAC updates and finals may follow either opening. -/
def Phase.after : Phase → DocOp → Option Phase
  | _, .init => some .uninitialized
  | .uninitialized, .setup _ => some .keyed
  | .uninitialized, .setupIV _ _ => some .keyed
  | .uninitialized, .hashInit => some .absorbing
  | .uninitialized, .macInit _ => some .absorbing
  | .keyed, .addEntropy _ => some .keyed
  | .keyed, .randomByte => some .streaming
  | .keyed, .random32 => some .streaming
  | .keyed, .cryptBuf _ => some .streaming
  | .keyed, .uniformDraw _ => some .streaming
  | .streaming, .addEntropy _ => some .streaming
  | .streaming, .randomByte => some .streaming
  | .streaming, .random32 => some .streaming
  | .streaming, .cryptBuf _ => some .streaming
  | .streaming, .uniformDraw _ => some .streaming
  | .absorbing, .hashUpdate _ => some .absorbing
  | .absorbing, .macUpdate _ => some .absorbing
  | .absorbing, .hashFinal _ => some .finalized
  | .absorbing, .macFinal _ => some .finalized
  | .finalized, .wipe => some .wiped
  | _, _ => none

/-- The Host keeps the discipline along a list of operations (43_protocol.md R205). -/
def Phase.follows : Phase → List DocOp → Bool
  | _, [] => true
  | p, op :: ops =>
    match p.after op with
    | none => false
    | some q => q.follows ops

/-- The phase right after hardware reset (43_protocol.md R205). -/
def Phase.atReset : Phase := .uninitialized

end Sys2Proof.Machine
end

