-- ==== Sys2Proof/Certificates/Slice0/Obligations.lean ====
section
/-! DEFINITION. The statements about the model, one `def Obligations.<Name> : Prop` each, from the numbered rules of
spec/. -/

open Sys2Proof Sys2Proof.Machine

/-! ### Command words (30_encoding.md) -/

/-- R74, R71, R77: every mnemonic's word, written from R74's word formulas, and words that are illegal. -/
def Obligations.OpcodeTableWordsDecode : Prop :=
  decode true 0x00000000 = .cmd .nop ∧ decode true 0x00000001 = .cmd .init ∧
  decode true 0x00004102 = .cmd (.absorb 0x41) ∧ decode true 0x00000003 = .cmd .absorbStop ∧
  decode true 0x00000004 = .cmd .flush ∧ decode true 0x00002005 = .cmd (.final 0x20) ∧
  decode true 0x00000006 = .cmd .drip ∧ decode true 0x00000007 = .cmd .random32 ∧
  decode true 0x00004808 = .cmd (.crypt 0x48) ∧ decode true 0x00000009 = .cmd .uniform ∧
  decode true 0x0000000F = .cmd .wipe ∧ decode true 0x00000010 = .cmd .update ∧
  decode true 0x00000011 = .cmd .whip ∧ decode true 0x00000012 = .cmd .crush ∧
  decode true 0x00000013 = .cmd .shuffle ∧ decode true 0x00000514 = .cmd (.absorbNibble 5) ∧
  decode true 0x00000015 = .cmd .output ∧
  decode true 0x000000FF = .illegal .reservedOpcode ∧ decode true 0x00010001 = .illegal .reservedBits ∧
  decode true 0x00000101 = .illegal .immediateInFormZ ∧ decode true 0x00001014 = .illegal .nibbleTooWide ∧
  decode false 0x00000010 = .illegal .primitiveAbsent

/-- R74, R78: decoding the word of a well-formed command gives the command back, with every operand. -/
def Obligations.DecodeInvertsEncode : Prop :=
  ∀ (p : Bool) (i : Instr), i.wellFormed p = true → decode p (encode i) = .cmd i

/-- R79: re-encoding what a legal word decodes to gives the word back, so that no two words spell one command. -/
def Obligations.EncodeInvertsDecode : Prop :=
  ∀ (p : Bool) (w : Word) (i : Instr), decode p w = .cmd i →
    encode i = w ∧ i.wellFormed p = true ∧ ∀ w' : Word, decode p w' = .cmd i → w' = w

/-- R71, R75, R76, R78: exactly which words are illegal, in the numbers of the word's fields. -/
def Obligations.IllegalWordsExactly : Prop :=
  ∀ (p : Bool) (w : Word) (op imm rsv : Nat), op = w.toNat % 256 → imm = w.toNat / 256 % 256 → rsv = w.toNat / 65536 →
    ((∃ why, decode p w = .illegal why) ↔
      rsv ≠ 0 ∨ (0x0A ≤ op ∧ op ≤ 0x0E) ∨ 0x16 ≤ op ∨ (0x10 ≤ op ∧ op ≤ 0x15 ∧ p = false) ∨
        (op ≠ 0x02 ∧ op ≠ 0x05 ∧ op ≠ 0x08 ∧ op ≠ 0x14 ∧ imm ≠ 0) ∨ (op = 0x14 ∧ 16 ≤ imm))

/-! ### Acceptance and the three errors (60_exceptions.md) -/

/-- R222, R224: a Host write of CMD, check by check; a dropped write changes its error flag and nothing else of the
device. -/
def Obligations.CommandAcceptance : Prop :=
  ∀ (s : State) (w : Word) (rest : List HostOp) (later : List Turn),
    s.HostMoves (.write .word 0x000 w) rest later →
    (s.busy = true → step s = .next { s with errBusy := true, program := rest, schedule := later }) ∧
    (s.busy = false → (∃ why, decode s.build.primitives w = .illegal why) →
      step s = .next { s with errIllegal := true, program := rest, schedule := later }) ∧
    (∀ i, s.busy = false → decode s.build.primitives w = .cmd i →
      (s.valid = false → i ≠ .nop → i ≠ .init → i ≠ .wipe →
        step s = .next { s with errInvalid := true, program := rest, schedule := later }) ∧
      (s.valid = true ∨ i = .nop ∨ i = .init ∨ i = .wipe →
        step s = .next { s with latch := some ⟨w, s.arg⟩, busy := true, program := rest, schedule := later }))

/-- R223, R35: a read of ARG, what a Host write of ARG does, and what a UNIFORM that is running takes from it: nothing,
since its bound is in LATCH. -/
def Obligations.ArgWrite : Prop :=
  (∀ s : State, s.regRead 0x008 = s.arg) ∧
  (∀ (s u : State) (a : Word), exec .uniform s = .next u →
    exec .uniform { s with arg := a } = .next { u with arg := a }) ∧
  ∀ (s : State) (v : Word) (rest : List HostOp) (later : List Turn),
    s.HostMoves (.write .word 0x008 v) rest later →
    (s.busy = true → step s = .next { s with errBusy := true, program := rest, schedule := later }) ∧
    (s.busy = false → step s = .next { s with arg := v, program := rest, schedule := later })

/-! ### The registers (10_state.md R32 to R41) -/

/-- R34: every bit of a STATUS read, and what a STATUS write does, BUSY or not. -/
def Obligations.StatusRegister : Prop :=
  (∀ (s : State) (n : Nat), (s.regRead 0x004).getLsbD n =
    if n = 0 then s.busy else if n = 1 then s.valid else if n = 8 then s.errIllegal else if n = 9 then s.errBusy
    else if n = 10 then s.errInvalid else false) ∧
  ∀ (s : State) (v : Word) (rest : List HostOp) (later : List Turn),
    s.HostMoves (.write .word 0x004 v) rest later →
    ∃ t, step s = .next t ∧
      t.errIllegal = (if v.getLsbD 8 then false else s.errIllegal) ∧
      t.errBusy = (if v.getLsbD 9 then false else s.errBusy) ∧
      t.errInvalid = (if v.getLsbD 10 then false else s.errInvalid) ∧
      t = { s with errIllegal := t.errIllegal, errBusy := t.errBusy, errInvalid := t.errInvalid, program := rest,
                   schedule := later }

/-- R36: RESULT reads as RESULT while idle and 0 while busy; a write is ignored and raises nothing. -/
def Obligations.ResultRegister : Prop :=
  ∀ s : State, (s.busy = false → s.regRead 0x00C = s.result) ∧ (s.busy = true → s.regRead 0x00C = 0) ∧
    ∀ (v : Word) (rest : List HostOp) (later : List Turn), s.HostMoves (.write .word 0x00C v) rest later →
      step s = .next { s with program := rest, schedule := later }

/-- R37, R38: CUR0 and CUR1 byte by byte; they read 0 while busy or without readback; writes are ignored. -/
def Obligations.CursorRegisters : Prop :=
  ∀ s : State,
    (s.build.readback = true → s.busy = false →
      (s.regRead 0x010).extractLsb' 0 8 = s.cipher.i ∧ (s.regRead 0x010).extractLsb' 8 8 = s.cipher.j ∧
      (s.regRead 0x010).extractLsb' 16 8 = s.cipher.k ∧ (s.regRead 0x010).extractLsb' 24 8 = s.cipher.z ∧
      (s.regRead 0x014).extractLsb' 0 8 = s.cipher.a ∧ (s.regRead 0x014).extractLsb' 8 8 = s.cipher.w ∧
      (s.regRead 0x014).extractLsb' 16 16 = 0) ∧
    (s.build.readback = false ∨ s.busy = true → s.regRead 0x010 = 0 ∧ s.regRead 0x014 = 0) ∧
    ∀ (off : Nat) (v : Word) (rest : List HostOp) (later : List Turn), off = 0x010 ∨ off = 0x014 →
      s.HostMoves (.write .word off v) rest later → step s = .next { s with program := rest, schedule := later }

/-- R40: the TABLE window, byte by byte, for every word of it. -/
def Obligations.TableWindow : Prop :=
  ∀ (s : State) (m : Nat), m < 64 →
    (s.build.readback = true → s.busy = false → ∀ n, n < 4 →
      (s.regRead (0x100 + 4 * m)).extractLsb' (8 * n) 8 = s.cipher.t (BitVec.ofNat 8 (4 * m + n))) ∧
    (s.build.readback = false ∨ s.busy = true → s.regRead (0x100 + 4 * m) = 0) ∧
    ∀ (v : Word) (rest : List HostOp) (later : List Turn), s.HostMoves (.write .word (0x100 + 4 * m) v) rest later →
      step s = .next { s with program := rest, schedule := later }

/-- R33, R39, R41: CMD reads 0, CAPS shows the build parameters at any time, unmapped offsets read 0; writes to CAPS and
to unmapped offsets are ignored. -/
def Obligations.FixedRegisters : Prop :=
  ∀ s : State, s.regRead 0x000 = 0 ∧
    s.regRead 0x018 = (if s.build.primitives then 1 else 0) + (if s.build.readback then 2 else 0) ∧
    (∀ off, 0x01C ≤ off → off ≤ 0x0FC → s.regRead off = 0) ∧
    ∀ (off : Nat) (v : Word) (rest : List HostOp) (later : List Turn), 0x018 ≤ off → off ≤ 0x0FC → off % 4 = 0 →
      s.HostMoves (.write .word off v) rest later → step s = .next { s with program := rest, schedule := later }

/-- R55: a Host read returns its register's value and changes nothing of the device, so that reading again returns the
same value. -/
def Obligations.ReadsHaveNoSideEffect : Prop :=
  ∀ (s : State) (off : Nat) (rest : List HostOp) (later : List Turn), off < 0x200 → off % 4 = 0 →
    s.HostMoves (.read .word off) rest later →
    ∃ t, step s = .next t ∧
      t = { s with reads := s.reads ++ [s.regRead off], program := rest, schedule := later } ∧
      ∀ off', t.regRead off' = s.regRead off'

/-- R53, R41: an access that is not an aligned 32-bit word is refused, one at or beyond 0x200 is outside the SPE. -/
def Obligations.AccessesOutsideInterface : Prop :=
  ∀ (s : State) (width : Width) (off : Nat) (op : HostOp) (rest : List HostOp) (later : List Turn),
    op = .read width off ∨ (∃ v, op = .write width off v) → s.HostMoves op rest later →
    (0x200 ≤ off → step s = .fault .outsideRegisterSpace) ∧
    (off < 0x200 → width ≠ .word ∨ off % 4 ≠ 0 → step s = .refused .notAlignedWord) ∧
    (off < 0x200 → width = .word → off % 4 = 0 → ∃ t, step s = .next t)

/-- R43, R56, R57, R28: two states that differ only in what a running command may hide are alike at every register while
busy, and without readback they are alike at every register but RESULT; and LATCH and the micro-state show at no
register, busy or not, on any build. -/
def Obligations.HiddenStateIsNotReadable : Prop :=
  ∀ (s t : State) (off : Nat),
    t = { s with cipher := t.cipher, result := t.result, draw := t.draw, latch := t.latch } →
    (s.busy = true → s.regRead off = t.regRead off) ∧
    (s.build.readback = false → off ≠ 0x00C → s.regRead off = t.regRead off) ∧
    (t.cipher = s.cipher → t.result = s.result → s.regRead off = t.regRead off)

/-! ### The engine (40_engine.md) -/

/-- R101, R110: UPDATE, its new cursors, the two slots it exchanges and its frame. -/
def Obligations.UpdateStepsAndSwaps : Prop :=
  ∀ s : State, s.cipher.table.wf = true →
    ∃ t, exec .update s = .next t ∧ s.CommandFrame t ∧ t.result = s.result ∧
      t.cipher.i = s.cipher.i + s.cipher.w ∧
      t.cipher.j = s.cipher.t (s.cipher.t t.cipher.i + s.cipher.j) + s.cipher.k ∧
      t.cipher.k = s.cipher.t t.cipher.j + s.cipher.k + t.cipher.i ∧
      t.cipher.z = s.cipher.z ∧ t.cipher.a = s.cipher.a ∧ t.cipher.w = s.cipher.w ∧
      ∀ x, t.cipher.t x = if x = t.cipher.i then s.cipher.t t.cipher.j
        else if x = t.cipher.j then s.cipher.t t.cipher.i else s.cipher.t x

/-- R102, R111: WHIP is 512 Updates and then the stride; it brings i back. -/
def Obligations.WhipAdvancesStride : Prop :=
  ∀ s : State, ∃ t u, exec .whip s = .next t ∧ s.CommandFrame t ∧ t.result = s.result ∧
    u = Nat.iterate Cipher.update 512 s.cipher ∧
    t.cipher.table = u.table ∧ t.cipher.j = u.j ∧ t.cipher.k = u.k ∧ t.cipher.i = s.cipher.i ∧
    t.cipher.z = s.cipher.z ∧ t.cipher.a = s.cipher.a ∧ t.cipher.w = s.cipher.w + 2

/-- R103, R112: CRUSH puts each mirrored pair of slots in ascending order, strictly on a permutation, and writes no
cursor. -/
def Obligations.CrushSortsMirroredPairs : Prop :=
  ∀ s : State, s.cipher.table.wf = true →
    ∃ t, exec .crush s = .next t ∧ s.CommandFrame t ∧ t.result = s.result ∧
      t.cipher.i = s.cipher.i ∧ t.cipher.j = s.cipher.j ∧ t.cipher.k = s.cipher.k ∧ t.cipher.z = s.cipher.z ∧
      t.cipher.a = s.cipher.a ∧ t.cipher.w = s.cipher.w ∧
      (∀ v < 128, ∀ lo hi : Byte, lo = BitVec.ofNat 8 v → hi = BitVec.ofNat 8 (255 - v) →
        (s.cipher.t lo > s.cipher.t hi → t.cipher.t lo = s.cipher.t hi ∧ t.cipher.t hi = s.cipher.t lo) ∧
        (¬ s.cipher.t lo > s.cipher.t hi → t.cipher.t lo = s.cipher.t lo ∧ t.cipher.t hi = s.cipher.t hi) ∧
        (s.cipher.Permutation → t.cipher.t lo < t.cipher.t hi))

/-- R112: a second CRUSH directly after a first changes nothing of the Cipher State. -/
def Obligations.CrushTwiceIsCrushOnce : Prop :=
  ∀ s : State, s.cipher.table.wf = true →
    ∃ t u, exec .crush s = .next t ∧ exec .crush t = .next u ∧ u.cipher = t.cipher

/-- R104, R113: SHUFFLE is whip, crush, whip, crush, whip, whatever the value of a, and then a is 0; i and z stay and w
advances by 6. -/
def Obligations.ShuffleMixesAndClearsCount : Prop :=
  ∀ s : State, ∃ t u, exec .shuffle s = .next t ∧ s.CommandFrame t ∧ t.result = s.result ∧
    u = s.cipher.whip.crush.whip.crush.whip ∧
    t.cipher.table = u.table ∧ t.cipher.j = u.j ∧ t.cipher.k = u.k ∧ t.cipher.a = 0 ∧
    t.cipher.i = s.cipher.i ∧ t.cipher.z = s.cipher.z ∧ t.cipher.w = s.cipher.w + 6

/-! ### Absorption (41_absorb.md) -/

/-- R130, R135: ABSORB_NIBBLE n shuffles first at a = 128, swaps slot a with slot 128 + n and counts; every other slot
and cursor is that of the state `e` it swaps in, and the two slots are distinct. -/
def Obligations.AbsorbNibbleSwapsAndCounts : Prop :=
  ∀ (s : State) (n : Nibble), s.cipher.table.wf = true →
    ∃ t e, exec (.absorbNibble n) s = .next t ∧ s.CommandFrame t ∧ t.result = s.result ∧
      (s.cipher.a = 128 → e = s.cipher.shuffle) ∧ (s.cipher.a ≠ 128 → e = s.cipher) ∧
      t.cipher.a = e.a + 1 ∧ t.cipher.i = e.i ∧ t.cipher.j = e.j ∧ t.cipher.k = e.k ∧ t.cipher.z = e.z ∧
      t.cipher.w = e.w ∧
      (∀ x, t.cipher.t x = if x = e.a then e.t (BitVec.ofNat 8 (128 + n.toNat))
        else if x = BitVec.ofNat 8 (128 + n.toNat) then e.t e.a else e.t x) ∧
      (s.cipher.a.toNat ≤ 128 →
        1 ≤ t.cipher.a.toNat ∧ t.cipher.a.toNat ≤ 128 ∧ e.a.toNat ≤ 127 ∧ e.a ≠ BitVec.ofNat 8 (128 + n.toNat))

/-- R131, R136: ABSORB b is ABSORB_NIBBLE of `b mod 16` and then of `b div 16`. -/
def Obligations.AbsorbLowNibbleFirst : Prop :=
  ∀ (s : State) (b : Byte),
    ∃ t u v, exec (.absorb b) s = .next t ∧ s.CommandFrame t ∧ t.result = s.result ∧
      exec (.absorbNibble (BitVec.ofNat 4 (b.toNat % 16))) s = .next u ∧
      exec (.absorbNibble (BitVec.ofNat 4 (b.toNat / 16))) u = .next v ∧ t.cipher = v.cipher

/-- R132, R137: ABSORB_STOP counts in every case, after a shuffle at a = 128, and swaps no slot. -/
def Obligations.AbsorbStopOnlyCounts : Prop :=
  ∀ s : State, ∃ t, exec .absorbStop s = .next t ∧ s.CommandFrame t ∧ t.result = s.result ∧
    (s.cipher.a = 128 → t.cipher = { s.cipher.shuffle with a := 1 }) ∧
    (s.cipher.a ≠ 128 → t.cipher = { s.cipher with a := s.cipher.a + 1 }) ∧
    (s.cipher.a.toNat ≤ 128 → 1 ≤ t.cipher.a.toNat ∧ t.cipher.a.toNat ≤ 128)

/-- R138: `m` nibble steps from a = 0 trigger `(m - 1) div 128` shuffles and end with a = `((m - 1) mod 128) + 1`; i and z
stay and w advances by 6 a shuffle. -/
def Obligations.AbsorptionCountingLaw : Prop :=
  ∀ (c : Cipher) (steps : List NibbleStep), c.a = 0 → steps ≠ [] →
    c.shufflesIn steps = (steps.length - 1) / 128 ∧
    (c.nibbleSteps steps).a.toNat = (steps.length - 1) % 128 + 1 ∧
    (c.nibbleSteps steps).i = c.i ∧ (c.nibbleSteps steps).z = c.z ∧
    (c.nibbleSteps steps).w = c.w + BitVec.ofNat 8 (6 * c.shufflesIn steps)

/-- R138: as long as no shuffle is triggered, absorption writes only slots 0 to 143 and leaves i, j, k, z and w. -/
def Obligations.AbsorptionWritesLowSlots : Prop :=
  ∀ (c : Cipher) (steps : List NibbleStep), c.table.wf = true → c.a.toNat ≤ 128 → c.shufflesIn steps = 0 →
    (c.nibbleSteps steps).i = c.i ∧ (c.nibbleSteps steps).j = c.j ∧ (c.nibbleSteps steps).k = c.k ∧
    (c.nibbleSteps steps).z = c.z ∧ (c.nibbleSteps steps).w = c.w ∧
    ∀ x : Byte, 143 < x.toNat → (c.nibbleSteps steps).t x = c.t x

/-! ### Extraction (42_extract.md) -/

/-- R150, R155: OUTPUT chains three table reads from the old z and writes z and RESULT only. -/
def Obligations.OutputChainsThreeReads : Prop :=
  ∀ s : State, ∃ t, exec .output s = .next t ∧ s.CommandFrame t ∧
    t.cipher = { s.cipher with z := s.cipher.t (s.cipher.t (s.cipher.t (s.cipher.z + s.cipher.k) + s.cipher.i) + s.cipher.j) } ∧
    t.result.toNat = t.cipher.z.toNat

/-- R151, R156: DRIP shuffles exactly when a is not 0, updates once and outputs; afterwards a is 0. -/
def Obligations.DripShufflesUpdatesOutputs : Prop :=
  ∀ s : State, ∃ t e u v, exec .drip s = .next t ∧ s.CommandFrame t ∧
    (s.cipher.a ≠ 0 → exec .shuffle s = .next e) ∧ (s.cipher.a = 0 → e = s) ∧
    exec .update e = .next u ∧ exec .output u = .next v ∧
    t.cipher = v.cipher ∧ t.result = v.result ∧ t.cipher.a = 0

/-- R158: squeezing n bytes is n drips for n at least 1, and exactly a flush for n = 0. -/
def Obligations.SqueezeIsDrips : Prop :=
  ∀ (c : Cipher) (n : Nat), (1 ≤ n → c.squeeze n = Cipher.drips n c) ∧ c.squeeze 0 = (c.flush, []) ∧
    (c.squeeze n).2.length = n ∧ (c.squeeze n).1.a = 0

/-! ### Protocol commands (43_protocol.md) -/

/-- R180, R100: INIT writes the identity table and the initial cursors, RESULT 0 and VALID 1, from any state; ARG and the
error flags stay. -/
def Obligations.InitResetsCipher : Prop :=
  ∀ s : State, ∃ t, exec .init s = .next t ∧
    (∀ x, t.cipher.t x = x) ∧ t.cipher.i = 0 ∧ t.cipher.j = 0 ∧ t.cipher.k = 0 ∧ t.cipher.z = 0 ∧ t.cipher.a = 0 ∧
    t.cipher.w = 1 ∧
    t = { s with cipher := t.cipher, result := 0, valid := true, busy := false, latch := none, draw := none } ∧
    ∀ s' t' : State, exec .init s' = .next t' → t'.cipher = t.cipher

/-- R170, R181: FLUSH shuffles exactly when absorption is pending; afterwards a is 0. -/
def Obligations.FlushShufflesIffPending : Prop :=
  ∀ s : State, ∃ t, exec .flush s = .next t ∧ s.CommandFrame t ∧ t.result = s.result ∧
    (s.cipher.a = 0 → t.cipher = s.cipher) ∧
    (s.cipher.a ≠ 0 → ∃ u, exec .shuffle s = .next u ∧ t.cipher = u.cipher) ∧ t.cipher.a = 0

/-- R173, R182: FINAL len is ABSORB_STOP and then ABSORB len, and never leaves a = 0. -/
def Obligations.FinalBindsLength : Prop :=
  ∀ (s : State) (len : Byte), ∃ t u v, exec (.final len) s = .next t ∧ s.CommandFrame t ∧ t.result = s.result ∧
    exec .absorbStop s = .next u ∧ exec (.absorb len) u = .next v ∧ t.cipher = v.cipher ∧
    (s.cipher.a.toNat ≤ 128 → t.cipher.a ≠ 0)

/-- R171, R183: RANDOM32 equals four DRIPs, the first in the least significant byte; a is 0 after each of them, so that
only the first can shuffle. -/
def Obligations.Random32IsFourDrips : Prop :=
  ∀ s : State, ∃ t d0 d1 d2 d3, exec .random32 s = .next t ∧ s.CommandFrame t ∧
    exec .drip s = .next d0 ∧ exec .drip d0 = .next d1 ∧ exec .drip d1 = .next d2 ∧ exec .drip d2 = .next d3 ∧
    t.cipher = d3.cipher ∧ t.cipher.a = 0 ∧ d0.cipher.a = 0 ∧ d1.cipher.a = 0 ∧ d2.cipher.a = 0 ∧
    t.result.toNat = d0.result.toNat + 256 * d1.result.toNat + 65536 * d2.result.toNat + 16777216 * d3.result.toNat

/-- R184: CRYPT b is a DRIP whose byte is xored with b; `CRYPT 0x00` gives the raw keystream byte. -/
def Obligations.CryptXorsKeystream : Prop :=
  ∀ (s : State) (b : Byte), ∃ t d, exec (.crypt b) s = .next t ∧ s.CommandFrame t ∧ exec .drip s = .next d ∧
    t.cipher = d.cipher ∧ t.result = b.zeroExtend 32 ^^^ d.result ∧ (b = 0 → t.result = d.result)

/-- R206, round trip: encrypting a buffer and encrypting the outcome from the same Cipher State gives the buffer back. -/
def Obligations.CryptRoundTrip : Prop :=
  ∀ (c : Cipher) (data : List Byte),
    (c.cryptBytes (c.cryptBytes data).2).2 = data ∧ (c.cryptBytes (c.cryptBytes data).2).1 = (c.cryptBytes data).1 ∧
    (c.cryptBytes data).2.length = data.length

/-- R172, R185: UNIFORM with a bound below 2 answers 0 and draws nothing: E stays as it was, with any pending
shuffle. -/
def Obligations.UniformSmallBoundDrawsNothing : Prop :=
  ∀ (s : State) (l : Latch), s.latch = some l → l.bound.toNat < 2 →
    ∃ t, exec .uniform s = .next t ∧ s.CommandFrame t ∧ t.result = 0 ∧ t.cipher = s.cipher

/-- R172, R185, R206: UNIFORM whose draw is at least min completes with `draw mod bound`, which is below the bound. -/
def Obligations.UniformAcceptedDraw : Prop :=
  ∀ (s : State) (l : Latch) (b r : Nat), s.latch = some l → s.draw = none → b = l.bound.toNat → 2 ≤ b →
    r = s.cipher.random32Value.toNat → (2 ^ 32 - b) % b ≤ r →
    ∃ t, exec .uniform s = .next t ∧ s.CommandFrame t ∧ t.cipher = s.cipher.random32State ∧
      t.result.toNat = r % b ∧ t.result.toNat < b

/-- R172, R58: a draw below min does not end UNIFORM, be it the first of the loop or a later one: the Engine goes on, and
nothing that is architectural changes. One draw a step, and the working copy it is made from, are the model's choice (log
entry 2). -/
def Obligations.UniformRejectedDraw : Prop :=
  ∀ (s : State) (l : Latch) (b r : Nat), s.latch = some l → b = l.bound.toNat → 2 ≤ b →
    r = s.working.random32Value.toNat → r < (2 ^ 32 - b) % b →
    ∃ t, exec .uniform s = .next t ∧ t = { s with draw := some s.working.random32State }

/-- R172, R185: the whole loop. When the first `n` draws are below min and the next one is not, the running UNIFORM
completes with that draw modulo the bound, all earlier draws spent. -/
def Obligations.UniformRunsItsLoop : Prop :=
  ∀ (s : State) (l : Latch) (n : Nat), s.latch = some l → decode s.build.primitives l.word = .cmd .uniform →
    2 ≤ l.bound.toNat → s.draw = none → s.busy = true → s.resetDone = true → s.schedule = [] →
    s.cipher.LoopEndsAt l.bound n →
    ∃ t, Host.Core.run Sys2Proof.core (n + 1) s = .next t ∧ s.CommandFrame t ∧
      t.cipher = Cipher.draws (n + 1) s.cipher ∧
      t.result.toNat = (s.cipher.drawValue n).toNat % l.bound.toNat ∧ t.result.toNat < l.bound.toNat

/-- R236: a loop that never accepts a draw leaves BUSY at 1 for ever, with nothing architectural changed. -/
def Obligations.UniformMayNeverEnd : Prop :=
  ∀ (s : State) (l : Latch), s.latch = some l → decode s.build.primitives l.word = .cmd .uniform →
    2 ≤ l.bound.toNat → s.draw = none → s.busy = true → s.resetDone = true → s.schedule = [] →
    (∀ n, s.cipher.RejectsFirst l.bound n) →
    ∀ k, ∃ t, Host.Core.run Sys2Proof.core k s = .next t ∧ t = { s with draw := t.draw }

/-- R172, the law of min: min is `2^32 mod bound`, below the bound, 0 exactly when the bound is a power of two, and each
result value is reached by the same number of accepted draws. -/
def Obligations.UniformIsUnbiased : Prop :=
  ∀ (bound : Word) (b : Nat), b = bound.toNat → 2 ≤ b →
    uniformMin bound = 2 ^ 32 % b ∧ uniformMin bound < b ∧ (uniformMin bound = 0 ↔ ∃ e, b = 2 ^ e) ∧
    b ∣ 2 ^ 32 - uniformMin bound ∧
    ∀ v < b, ((Finset.range (2 ^ 32)).filter fun r => uniformMin bound ≤ r ∧ r % b = v).card =
      (2 ^ 32 - uniformMin bound) / b

/-! ### System commands (44_system.md) -/

/-- R210: NOP changes nothing but BUSY and what acceptance latched. -/
def Obligations.NopDoesNothing : Prop :=
  ∀ s : State, ∃ t, exec .nop s = .next t ∧ s.CommandFrame t ∧ t.result = s.result ∧ t.cipher = s.cipher

/-- R211: WIPE zeroes every slot, every cursor, RESULT and ARG and clears VALID; the error flags stay, and every readback
register reads 0 afterwards. -/
def Obligations.WipeZeroesEverything : Prop :=
  ∀ s : State, ∃ t, exec .wipe s = .next t ∧
    (∀ x, t.cipher.t x = 0) ∧ t.cipher.i = 0 ∧ t.cipher.j = 0 ∧ t.cipher.k = 0 ∧ t.cipher.z = 0 ∧ t.cipher.a = 0 ∧
    t.cipher.w = 0 ∧
    t = { s with cipher := t.cipher, result := 0, arg := 0, valid := false, busy := false, latch := none, draw := none } ∧
    (∀ off, off ≠ 0x004 → off ≠ 0x018 → t.regRead off = 0) ∧
    ∀ s' t' : State, exec .wipe s' = .next t' → t'.cipher = t.cipher

/-- R27, R211: from a wiped state no step but an INIT or a hardware reset revives it, and until then RESULT can only stay
or become 0: no keystream comes from a wiped state. -/
def Obligations.WipedStateYieldsNothing : Prop :=
  ∀ s t : State, s.Inv → s.valid = false → step s = .next t →
    (t.valid = true → s.mover = .hardReset ∨ (s.mover = .engine ∧ s.fetch = some .init)) ∧
    (t.result = s.result ∨ t.result = 0)

/-! ### The machine as a whole -/

/-- R10, R222, R58: when the Engine moves and LATCH holds a legal command, the step is that command's own effect. -/
def Obligations.StepRunsLatchedCommand : Prop :=
  ∀ (s : State) (l : Latch) (i : Instr), s.latch = some l → decode s.build.primitives l.word = .cmd i →
    s.busy = true → s.resetDone = true →
    (∀ later, s.schedule = .engine :: later → step s = exec i { s with schedule := later }) ∧
    (s.schedule = [] → step s = exec i s)

/-- R250, R252, R44: hardware reset from any state, busy or not, gives every device item its reset value, the Cipher
State of INIT among them; the build, the Host and what is scheduled after it stay. -/
def Obligations.HardwareResetSetsEveryItem : Prop :=
  ∀ (s : State) (later : List Turn), s.schedule = .hardReset :: later →
    ∃ t, step s = .next t ∧ (∀ x, t.cipher.t x = x) ∧ t.cipher.i = 0 ∧ t.cipher.j = 0 ∧ t.cipher.k = 0 ∧
      t.cipher.z = 0 ∧ t.cipher.a = 0 ∧ t.cipher.w = 1 ∧ t.valid = true ∧ t.busy = false ∧ t.latch = none ∧
      t.draw = none ∧ t.arg = 0 ∧ t.result = 0 ∧ t.errIllegal = false ∧ t.errBusy = false ∧ t.errInvalid = false ∧
      t.resetDone = true ∧ t.build = s.build ∧ t.program = s.program ∧ t.reads = s.reads ∧ t.schedule = later ∧
      ∃ u, exec .init s = .next u ∧ u.cipher = t.cipher

/-- R253, R55: an idle device waits for a CMD write, after reset and at any other time. A step of the Host that reads a
register, polls or has nothing to do, and a step of the Engine, leave every item of the device as it was; only the Host's
own data and the schedule move on. That an Engine turn of an idle device, and a Host turn with nothing to do, change
nothing is the model's choice (log entries 3 and 4). -/
def Obligations.ResetWaitsForCommand : Prop :=
  ∀ s : State, s.busy = false → s.resetDone = true → s.mover = .host ∨ s.mover = .engine →
    (s.program = [] ∨ (∃ off rest, s.program = .read .word off :: rest ∧ off < 0x200 ∧ off % 4 = 0) ∨
      ∃ rest, s.program = .wait :: rest) →
    ∃ t, step s = .next t ∧
      t = { s with program := t.program, reads := t.reads, schedule := s.schedule.tail } ∧
      (t.program = s.program ∨ (s.mover = .host ∧ t.program = s.program.tail))

/-- R24, R25, R26, R28, R44: the invariant holds right after reset of every build, whatever the Host is to do and whoever
is to move. -/
def Obligations.InvariantHoldsAtReset : Prop :=
  ∀ (b : Build) (ops : List HostOp) (turns : List Turn),
    State.Inv { State.resetOf b with program := ops, schedule := turns }

/-- R24, R25, R26, R28: every step keeps the invariant: the canonical table, the permutation and the odd stride of a live
state, the counter's range, and BUSY exactly while a legal command is latched. -/
def Obligations.StepKeepsInvariant : Prop := ∀ s t : State, s.Inv → step s = .next t → t.Inv

/-- R24: in every state that a run reaches from a reset of any build, with any Host and any order of turns, T is a
bijection on {0..255} while VALID = 1: each value occurs in exactly one slot. -/
def Obligations.TableStaysPermutation : Prop :=
  ∀ (b : Build) (ops : List HostOp) (turns : List Turn) (t : State),
    Reaches { State.resetOf b with program := ops, schedule := turns } t → t.valid = true →
    ∀ v : Byte, ∃ x : Byte, t.cipher.t x = v ∧ ∀ y : Byte, t.cipher.t y = v → y = x

/-- R31: an error flag that is set is cleared only by hardware reset or by a Host write of 1 to its STATUS bit, and it
rises only at a Host write of CMD or, for E_BUSY, of ARG. -/
def Obligations.ErrorFlagsAreSticky : Prop :=
  ∀ s t : State, step s = .next t →
    (∀ (old new : Bool) (bit : Nat), (old, new, bit) = (s.errIllegal, t.errIllegal, 8) ∨
        (old, new, bit) = (s.errBusy, t.errBusy, 9) ∨ (old, new, bit) = (s.errInvalid, t.errInvalid, 10) →
      (old = true → new = false → s.mover = .hardReset ∨
        (s.mover = .host ∧ ∃ v rest, s.program = .write .word 0x004 v :: rest ∧ v.getLsbD bit = true)) ∧
      (old = false → new = true → s.mover = .host ∧ ∃ v rest, s.program = .write .word 0x000 v :: rest ∨
        (bit = 9 ∧ s.program = .write .word 0x008 v :: rest)))

/-- R27, R34: who changes VALID and BUSY. -/
def Obligations.ValidAndBusyChangeOnlyByRule : Prop :=
  ∀ s t : State, step s = .next t →
    (s.valid = false → t.valid = true → s.mover = .hardReset ∨ (s.mover = .engine ∧ s.fetch = some .init)) ∧
    (s.valid = true → t.valid = false → s.mover = .engine ∧ s.fetch = some .wipe) ∧
    (s.busy = false → t.busy = true → s.mover = .host ∧ ∃ w rest i, s.program = .write .word 0x000 w :: rest ∧
      decode s.build.primitives w = .cmd i ∧ t.fetch = some i) ∧
    (s.busy = true → t.busy = false → s.mover = .hardReset ∨ s.mover = .engine)

/-- R20, R21, R45, R58: the Cipher State changes only when the Engine completes a command, or at hardware reset; until
then E, VALID, RESULT and ARG stay as they were. -/
def Obligations.EffectsAppearAtCompletion : Prop :=
  ∀ s t : State, step s = .next t → s.mover ≠ .hardReset →
    (t.cipher ≠ s.cipher → s.mover = .engine ∧ s.busy = true ∧ t.busy = false) ∧
    (s.busy = true → t.busy = true →
      t.cipher = s.cipher ∧ t.valid = s.valid ∧ t.result = s.result ∧ t.arg = s.arg ∧ t.latch = s.latch)

/-- R29, R30: which step may change RESULT and ARG. -/
def Obligations.ResultAndArgWriters : Prop :=
  ∀ s t : State, step s = .next t → s.mover ≠ .hardReset →
    (t.result ≠ s.result → s.mover = .engine ∧ ∃ i, s.fetch = some i ∧
      (i = .drip ∨ (∃ b, i = .crypt b) ∨ i = .output ∨ i = .random32 ∨ i = .uniform ∨ i = .init ∨ i = .wipe)) ∧
    (t.arg ≠ s.arg → (s.mover = .engine ∧ s.fetch = some .wipe) ∨
      (s.mover = .host ∧ s.busy = false ∧ ∃ v rest, s.program = .write .word 0x008 v :: rest ∧ t.arg = v))

/-- R206, R43, determinism: what a command of a busy device does to E, RESULT and BUSY depends on E, LATCH and the
working copy only. -/
def Obligations.CommandIsFunctionOfEngineState : Prop :=
  ∀ (i : Instr) (s s' t : State), s.cipher = s'.cipher → s.latch = s'.latch → s.draw = s'.draw →
    s.busy = true → s'.busy = true → exec i s = .next t →
    ∃ t', exec i s' = .next t' ∧ t'.cipher = t.cipher ∧ t'.busy = t.busy ∧ t'.draw = t.draw ∧
      (t.busy = false ∧ writesResult i = true → t'.result = t.result) ∧
      (t.busy = true ∨ writesResult i = false → t'.result = s'.result ∧ t.result = s.result)

/-- R255: both orders of a `nowait` write and the Engine step of a running command. Engine first: the command completes
and the new word is latched. Host first: the word is dropped with E_BUSY, and then the command completes as if nothing had
been written. -/
def Obligations.NowaitRaceHasTwoOutcomes : Prop :=
  ∀ (s u : State) (l : Latch) (i j : Instr) (w : Word) (rest : List HostOp), s.resetDone = true → s.busy = true →
    s.latch = some l → decode s.build.primitives l.word = .cmd i → decode s.build.primitives w = .cmd j →
    s.program = .write .word 0x000 w :: rest →
    exec i { s with schedule := [] } = .next u → u.busy = false → u.valid = true →
    Host.Core.run Sys2Proof.core 2 { s with schedule := [.engine, .host] } =
      .next { u with latch := some ⟨w, u.arg⟩, busy := true, program := rest } ∧
    Host.Core.run Sys2Proof.core 2 { s with schedule := [.host, .engine] } =
      .next { u with errBusy := true, program := rest }

/-- R251: between a power loss and the next hardware reset every Host access and every Engine turn is refused, and
hardware reset ends this. -/
def Obligations.RefusedBeforeHardwareReset : Prop :=
  ∀ (s : State) (later : List Turn),
    (s.resetDone = false →
      (s.schedule = .host :: later → s.program ≠ [] → step s = .refused .beforeHardwareReset) ∧
      (s.schedule = .engine :: later → step s = .refused .beforeHardwareReset)) ∧
    (s.schedule = .powerLoss :: later → ∃ t, step s = .next t ∧ t.resetDone = false ∧ t.program = s.program ∧
      t.schedule = later) ∧
    (s.schedule = .hardReset :: later → ∃ t, step s = .next t ∧ t.resetDone = true)

/-- R8, R9, R232: the instances of a platform share nothing. A step of one leaves the others as they are, steps of two
instances in either order give the same platform, and a bus address selects the instance whose 512 bytes it lies in. -/
def Obligations.InstancesShareNothing : Prop :=
  (∀ (p q : Platform) (n m : Nat), p.stepAt n = .next q → m ≠ n → q[m]? = p[m]?) ∧
  (∀ (p q r : Platform) (n m : Nat), m ≠ n → p.stepAt n = .next q → q.stepAt m = .next r →
    ∃ q', p.stepAt m = .next q' ∧ q'.stepAt n = .next r) ∧
  ∀ (p : Platform) (n off : Nat) (x : Placed), p.disjoint → p[n]? = some x → off < 0x200 →
    p.route (x.base + off) = some (n, off)

/-! ### Host sequences (42_extract.md R157, 43_protocol.md R190 to R204)

That a run comes to the end of its lines rests on log entry 3: on an empty schedule the Engine moves while it can, else
the Host. -/

/-- R157: SQUEEZE n realises Squeeze(E, n), in every order of Host and Engine turns. That the run reaches the end rests on
the model's choice for an empty schedule (log entry 3). -/
def Obligations.SqueezeSequence : Prop :=
  ∀ (s : State) (n : Nat) (rest : List HostOp), s.HostReady (squeezeLines n) rest →
    ∃ t, s.HostFinishes t rest (s.cipher.squeeze n).1 ((s.cipher.squeeze n).2.map zext32)

/-- R190, R191: SETUP and SETUP_IV realise setup and setupWithIV, from a live device and from a wiped one; afterwards a is
0, and the nonce always ends in a shuffle. That the run reaches the end rests on the model's choice for an empty schedule
(log entry 3). -/
def Obligations.SetupSequences : Prop :=
  ∀ (s : State) (key nonce : List Byte) (rest : List HostOp),
    (s.HostIdle (setupLines key) rest →
      ∃ t, s.HostFinishes t rest (Cipher.reset.absorbBytes key).flush [] ∧ t.cipher.a = 0) ∧
    (s.HostIdle (setupIVLines key nonce) rest →
      ∃ t, s.HostFinishes t rest (((Cipher.reset.absorbBytes key).flush.absorbStop).absorbBytes nonce).shuffle [] ∧
        t.cipher.a = 0)

/-- R194: CRYPT_BUF realises crypt, byte by byte. That the run reaches the end rests on the model's choice for an empty
schedule (log entry 3). -/
def Obligations.CryptBufferSequence : Prop :=
  ∀ (s : State) (data : List Byte) (rest : List HostOp), s.HostReady (cryptBufLines data) rest →
    ∃ t, s.HostFinishes t rest (s.cipher.cryptBytes data).1 ((s.cipher.cryptBytes data).2.map zext32)

/-- R199, R200, R204: HASH and MAC realise their compositions, from a live device and from a wiped one; the key comes
first, a stop follows it, and the length is bound before the squeeze. That the run reaches the end rests on the model's
choice for an empty schedule (log entry 3). -/
def Obligations.HashAndMacSequences : Prop :=
  ∀ (s : State) (data key msg : List Byte) (n : Byte) (rest : List HostOp) (h m : Cipher),
    h = (Cipher.reset.absorbBytes data).absorbStop.absorbByte n →
    m = (((Cipher.reset.absorbBytes key).absorbStop).absorbBytes msg).absorbStop.absorbByte n →
    (s.HostIdle (hashLines data n) rest →
      ∃ t, s.HostFinishes t rest (h.squeeze n.toNat).1 ((h.squeeze n.toNat).2.map zext32)) ∧
    (s.HostIdle (macLines msg key n) rest →
      ∃ t, s.HostFinishes t rest (m.squeeze n.toNat).1 ((m.squeeze n.toNat).2.map zext32))
end

