-- ==== Sys2Proof/Laws/Memory.lean ====
section
/-! SUPPORT. The laws of the table memory: read after write, frames, the canonical form is kept, and canonical memories
that read alike are equal. -/

namespace Sys2Proof.Machine

/-- The canonical form, one cell at a time. -/
theorem Memory.wf_cons (a : Nat) (v : Byte) (m : Memory) :
    Memory.wf ((a, v) :: m) = true ↔
      a < 256 ∧ v ≠ Memory.unlisted a ∧ (∀ c ∈ m, a < c.1) ∧ Memory.wf m = true := by
  simp [Memory.wf, and_assoc]

@[simp] theorem Memory.wf_nil : Memory.wf [] = true := rfl

@[simp] theorem Memory.lookup_nil (a : Nat) : Memory.lookup [] a = Memory.unlisted a := rfl

/-- Below its first slot a canonical memory reads as unlisted. -/
theorem Memory.lookup_of_forall_lt {m : Memory} {a : Nat} (h : ∀ c ∈ m, a < c.1) :
    m.lookup a = Memory.unlisted a := by
  induction m with
  | nil => rfl
  | cons c m ih =>
    have hc := h c (by simp)
    have : a ≠ c.1 := by omega
    simp only [Memory.lookup, this, if_false]
    exact ih fun d hd => h d (by simp [hd])

/-- Every cell after a put is the put one or was there before. -/
theorem Memory.mem_put {m : Memory} {a : Nat} {v : Byte} {c : Host.Cell} (h : c ∈ m.put a v) :
    c.1 = a ∨ c ∈ m := by
  induction m with
  | nil =>
    simp only [Memory.put] at h
    split at h <;> simp_all
  | cons d m ih =>
    have hnew : c = (a, v) → c.1 = a := fun h => by rw [h]
    simp only [Memory.put] at h
    split at h
    · split at h
      · exact .inr h
      · exact (List.mem_cons.mp h).imp hnew id
    · split at h
      · split at h
        · exact .inr (List.mem_cons_of_mem d h)
        · exact (List.mem_cons.mp h).imp hnew (List.mem_cons_of_mem d)
      · rcases List.mem_cons.mp h with h | h
        · exact .inr (h ▸ List.mem_cons_self)
        · exact (ih h).imp id (List.mem_cons_of_mem d)

/-- A put keeps the canonical form. -/
theorem Memory.put_wf {m : Memory} {a : Nat} (v : Byte) (ha : a < 256) (h : m.wf = true) : (m.put a v).wf = true := by
  induction m with
  | nil =>
    simp only [Memory.put]
    split
    · rfl
    · rename_i hv
      exact (Memory.wf_cons a v []).mpr ⟨ha, hv, by simp, rfl⟩
  | cons d m ih =>
    obtain ⟨b, x⟩ := d
    obtain ⟨hb, hx, hlt, hm⟩ := (Memory.wf_cons b x m).mp h
    simp only [Memory.put]
    split
    · rename_i hab
      split
      · exact h
      · rename_i hv
        refine (Memory.wf_cons a v _).mpr ⟨ha, hv, fun c hc => ?_, h⟩
        rcases List.mem_cons.mp hc with rfl | hc
        · exact hab
        · have := hlt c hc
          omega
    · split
      · rename_i hab
        split
        · exact hm
        · rename_i hv
          exact (Memory.wf_cons a v m).mpr ⟨ha, hv, fun c hc => hab ▸ hlt c hc, hm⟩
      · rename_i h1 h2
        refine (Memory.wf_cons b x _).mpr ⟨hb, hx, fun c hc => ?_, ih hm⟩
        rcases Memory.mem_put hc with hc | hc
        · omega
        · exact hlt c hc

/-- What a put memory reads, slot by slot. -/
theorem Memory.lookup_put {m : Memory} (h : m.wf = true) (a : Nat) (v : Byte) (b : Nat) :
    (m.put a v).lookup b = if b = a then v else m.lookup b := by
  induction m with
  | nil =>
    simp only [Memory.put]
    split
    · rename_i hv
      split
      · rename_i hb
        simp [hb, hv]
      · rfl
    · rfl
  | cons d m ih =>
    obtain ⟨c, x⟩ := d
    obtain ⟨-, -, hlt, hm⟩ := (Memory.wf_cons c x m).mp h
    simp only [Memory.put]
    split
    · rename_i hac
      split
      · rename_i hv
        split
        · rename_i hb
          subst hb
          rw [hv]
          refine Memory.lookup_of_forall_lt fun e he => ?_
          rcases List.mem_cons.mp he with rfl | he
          · exact hac
          · have := hlt e he
            omega
        · rfl
      · rfl
    · split
      · rename_i hac
        subst hac
        split
        · rename_i hv
          split
          · rename_i hb
            subst hb
            rw [hv]
            exact Memory.lookup_of_forall_lt hlt
          · rename_i hb
            simp [Memory.lookup, hb]
        · simp only [Memory.lookup]
          split <;> simp_all
      · simp only [Memory.lookup, ih hm]
        split <;> rename_i hb
        · have : b ≠ a := by omega
          simp [this]
        · rfl

/-- A read after a write to the same slot gives the value written; any other slot reads as before. -/
theorem Memory.read_write {m : Memory} (h : m.wf = true) (x v y : Byte) :
    (m.write x v).read y = if y = x then v else m.read y := by
  simp only [Memory.read, Memory.write, Memory.lookup_put h, BitVec.toNat_inj]

/-- A write keeps the canonical form. -/
theorem Memory.write_wf {m : Memory} (x v : Byte) (h : m.wf = true) : (m.write x v).wf = true :=
  Memory.put_wf v x.isLt h

/-- Canonical memories that read alike at every slot are the same list. -/
theorem Memory.ext_of_wf {m n : Memory} (hm : m.wf = true) (hn : n.wf = true)
    (h : ∀ a < 256, m.lookup a = n.lookup a) : m = n := by
  induction m generalizing n with
  | nil =>
    cases n with
    | nil => rfl
    | cons d n =>
      obtain ⟨b, y⟩ := d
      obtain ⟨hb, hy, -, -⟩ := (Memory.wf_cons b y n).mp hn
      have := h b hb
      simp only [Memory.lookup, if_true] at this
      exact absurd this.symm hy
  | cons c m ih =>
    obtain ⟨a, x⟩ := c
    obtain ⟨ha, hx, hlta, hm'⟩ := (Memory.wf_cons a x m).mp hm
    cases n with
    | nil =>
      have := h a ha
      simp only [Memory.lookup, if_true] at this
      exact absurd this hx
    | cons d n =>
      obtain ⟨b, y⟩ := d
      obtain ⟨hb, hy, hltb, hn'⟩ := (Memory.wf_cons b y n).mp hn
      have hlo : ∀ e, e < b → Memory.lookup ((b, y) :: n) e = Memory.unlisted e := fun e he =>
        Memory.lookup_of_forall_lt fun z hz => by
          rcases List.mem_cons.mp hz with rfl | hz
          · exact he
          · have := hltb z hz
            omega
      have hlo' : ∀ e, e < a → Memory.lookup ((a, x) :: m) e = Memory.unlisted e := fun e he =>
        Memory.lookup_of_forall_lt fun z hz => by
          rcases List.mem_cons.mp hz with rfl | hz
          · exact he
          · have := hlta z hz
            omega
      have hab : a = b := by
        rcases lt_trichotomy a b with hlt | heq | hgt
        · have := h a ha
          rw [hlo a hlt] at this
          simp only [Memory.lookup, if_true] at this
          exact absurd this hx
        · exact heq
        · have := h b hb
          rw [hlo' b hgt] at this
          simp only [Memory.lookup, if_true] at this
          exact absurd this.symm hy
      subst hab
      have hxy : x = y := by
        have := h a ha
        simpa [Memory.lookup] using this
      subst hxy
      congr 1
      refine ih hm' hn' fun e he => ?_
      by_cases hea : e = a
      · subst hea
        rw [Memory.lookup_of_forall_lt hlta, Memory.lookup_of_forall_lt hltb]
      · have := h e he
        simpa [Memory.lookup, hea] using this

/-- A tabulated memory is canonical. -/
theorem Memory.tabulate_wf (f : Nat → Byte) : ∀ n ≤ 256, (Memory.tabulate f n).wf = true
  | 0, _ => rfl
  | n + 1, h => Memory.put_wf (f n) (by omega) (Memory.tabulate_wf f n (by omega))

/-- What a tabulated memory reads. -/
theorem Memory.lookup_tabulate (f : Nat → Byte) :
    ∀ n ≤ 256, ∀ b, (Memory.tabulate f n).lookup b = if b < n then f b else Memory.unlisted b
  | 0, _, b => by simp [Memory.tabulate]
  | n + 1, h, b => by
    simp only [Memory.tabulate, Memory.lookup_put (Memory.tabulate_wf f n (by omega)),
      Memory.lookup_tabulate f n (by omega)]
    by_cases hb : b = n
    · simp [hb]
    · have : b < n ↔ b < n + 1 := by omega
      simp [hb, this]

end Sys2Proof.Machine
end

