-- ==== Sys2Proof/Laws/Cipher.lean ====
section
/-! SUPPORT. The laws of the Cipher State primitives: what each one reads and writes, and that each keeps the canonical
table, the permutation, the odd stride and the counter's range. -/

namespace Sys2Proof.Machine

/-! ### Slots -/

section Slots

variable (c : Cipher) (p q x v : Byte)

@[simp] theorem Cipher.setT_i : (c.setT x v).i = c.i := rfl
@[simp] theorem Cipher.setT_j : (c.setT x v).j = c.j := rfl
@[simp] theorem Cipher.setT_k : (c.setT x v).k = c.k := rfl
@[simp] theorem Cipher.setT_z : (c.setT x v).z = c.z := rfl
@[simp] theorem Cipher.setT_a : (c.setT x v).a = c.a := rfl
@[simp] theorem Cipher.setT_w : (c.setT x v).w = c.w := rfl
@[simp] theorem Cipher.swap_i : (c.swap p q).i = c.i := rfl
@[simp] theorem Cipher.swap_j : (c.swap p q).j = c.j := rfl
@[simp] theorem Cipher.swap_k : (c.swap p q).k = c.k := rfl
@[simp] theorem Cipher.swap_z : (c.swap p q).z = c.z := rfl
@[simp] theorem Cipher.swap_a : (c.swap p q).a = c.a := rfl
@[simp] theorem Cipher.swap_w : (c.swap p q).w = c.w := rfl

end Slots

/-- A slot write keeps the canonical table. -/
theorem Cipher.setT_wf {c : Cipher} (h : c.table.wf = true) (x v : Byte) : (c.setT x v).table.wf = true :=
  Memory.write_wf x v h

/-- Reading after a slot write. -/
theorem Cipher.t_setT {c : Cipher} (h : c.table.wf = true) (x v y : Byte) :
    (c.setT x v).t y = if y = x then v else c.t y :=
  Memory.read_write h x v y

/-- Swap keeps the canonical table. -/
theorem Cipher.swap_wf {c : Cipher} (h : c.table.wf = true) (p q : Byte) : (c.swap p q).table.wf = true :=
  Cipher.setT_wf (Cipher.setT_wf h p _) q _

/-- Swap exchanges its two slots and leaves every other slot (R13). -/
theorem Cipher.t_swap {c : Cipher} (h : c.table.wf = true) (p q y : Byte) :
    (c.swap p q).t y = if y = p then c.t q else if y = q then c.t p else c.t y := by
  simp only [Cipher.swap, Cipher.t_setT (Cipher.setT_wf h p _), Cipher.t_setT h]
  by_cases hq : y = q <;> by_cases hp : y = p <;> simp_all

/-- As a function of the slot, Swap composes the table with the exchange of two slots. -/
theorem Cipher.t_swap_eq_comp {c : Cipher} (h : c.table.wf = true) (p q : Byte) :
    (c.swap p q).t = c.t ∘ Equiv.swap p q := by
  funext y
  simp only [Cipher.t_swap h, Function.comp_apply, Equiv.swap_apply_def]
  split <;> [rfl; (split <;> rfl)]

/-- The permutation invariant says that the table is a bijection. -/
theorem Cipher.permutation_iff (c : Cipher) : c.Permutation ↔ Function.Bijective c.t := by
  rw [Function.bijective_iff_existsUnique]
  rfl

/-- Swap keeps a permutation a permutation. -/
theorem Cipher.swap_permutation {c : Cipher} (h : c.table.wf = true) (hp : c.Permutation) (p q : Byte) :
    (c.swap p q).Permutation := by
  rw [Cipher.permutation_iff] at hp ⊢
  rw [Cipher.t_swap_eq_comp h]
  exact hp.comp (Equiv.swap p q).bijective

/-- Permutation depends on the table only. -/
theorem Cipher.Permutation.of_table_eq {c d : Cipher} (h : c.Permutation) (e : d.table = c.table) : d.Permutation := by
  have : d.t = c.t := by
    funext x
    simp [Cipher.t, e]
  rw [Cipher.permutation_iff] at h ⊢
  rwa [this]

/-! ### The engine -/

/-- The state Update swaps in: the cursors stepped, the table as it was (R101). -/
def Cipher.stepped (c : Cipher) : Cipher :=
  { c with
    i := c.i + c.w
    j := c.t (c.t (c.i + c.w) + c.j) + c.k
    k := c.t (c.t (c.t (c.i + c.w) + c.j) + c.k) + c.k + (c.i + c.w) }

/-- Update steps the cursors and then swaps the slots at the new i and j (R101). -/
theorem Cipher.update_eq (c : Cipher) : c.update = c.stepped.swap c.stepped.i c.stepped.j := rfl

@[simp] theorem Cipher.update_i (c : Cipher) : c.update.i = c.i + c.w := rfl
@[simp] theorem Cipher.update_z (c : Cipher) : c.update.z = c.z := rfl
@[simp] theorem Cipher.update_a (c : Cipher) : c.update.a = c.a := rfl
@[simp] theorem Cipher.update_w (c : Cipher) : c.update.w = c.w := rfl

theorem Cipher.update_wf {c : Cipher} (h : c.table.wf = true) : c.update.table.wf = true :=
  Cipher.swap_wf (c := c.stepped) h _ _

theorem Cipher.update_permutation {c : Cipher} (h : c.table.wf = true) (hp : c.Permutation) : c.update.Permutation :=
  Cipher.swap_permutation (c := c.stepped) h (hp.of_table_eq rfl) _ _

/-- The frame and closure of a run of Updates: only i, j, k and the table change. -/
theorem Cipher.updates_spec (c : Cipher) : ∀ n : Nat,
    (Cipher.updates n c).i = c.i + BitVec.ofNat 8 n * c.w ∧ (Cipher.updates n c).z = c.z ∧
      (Cipher.updates n c).a = c.a ∧ (Cipher.updates n c).w = c.w
  | 0 => by simp [Cipher.updates]
  | n + 1 => by
    obtain ⟨hi, hz, ha, hw⟩ := Cipher.updates_spec c n
    simp only [Cipher.updates, Cipher.update_i, Cipher.update_z, Cipher.update_a, Cipher.update_w, hi, hz, ha, hw,
      and_true]
    rw [BitVec.add_assoc]
    congr 1
    rw [← BitVec.ofNat_add_ofNat, BitVec.add_mul]
    simp

theorem Cipher.updates_wf {c : Cipher} (h : c.table.wf = true) : ∀ n, (Cipher.updates n c).table.wf = true
  | 0 => by rwa [Cipher.updates]
  | n + 1 => by
    rw [Cipher.updates]
    exact Cipher.update_wf (Cipher.updates_wf h n)

theorem Cipher.updates_permutation {c : Cipher} (h : c.table.wf = true) (hp : c.Permutation) :
    ∀ n, (Cipher.updates n c).Permutation
  | 0 => by rwa [Cipher.updates]
  | n + 1 => by
    rw [Cipher.updates]
    exact Cipher.update_permutation (Cipher.updates_wf h n) (Cipher.updates_permutation h hp n)

/-- A run of Updates is the iterate of one. -/
theorem Cipher.updates_eq_iterate (c : Cipher) : ∀ n, Cipher.updates n c = Nat.iterate Cipher.update n c
  | 0 => rfl
  | n + 1 => by rw [Cipher.updates, Cipher.updates_eq_iterate c n, Function.iterate_succ_apply']

@[simp] theorem Cipher.advanceStride_table (c : Cipher) : c.advanceStride.table = c.table := rfl
@[simp] theorem Cipher.advanceStride_i (c : Cipher) : c.advanceStride.i = c.i := rfl
@[simp] theorem Cipher.advanceStride_j (c : Cipher) : c.advanceStride.j = c.j := rfl
@[simp] theorem Cipher.advanceStride_k (c : Cipher) : c.advanceStride.k = c.k := rfl
@[simp] theorem Cipher.advanceStride_z (c : Cipher) : c.advanceStride.z = c.z := rfl
@[simp] theorem Cipher.advanceStride_a (c : Cipher) : c.advanceStride.a = c.a := rfl
@[simp] theorem Cipher.advanceStride_w (c : Cipher) : c.advanceStride.w = c.w + 2 := rfl

/-- Whip, unfolded (R102). -/
theorem Cipher.whip_eq (c : Cipher) : c.whip = (Cipher.updates 512 c).advanceStride := by delta Cipher.whip; rfl

/-- Crush, unfolded (R103). -/
theorem Cipher.crush_eq (c : Cipher) : c.crush = Cipher.crushPairs 128 c := by delta Cipher.crush; rfl

/-- 512 updates bring i back: they add `512 * w`, which is 0 modulo 256 (R102). -/
@[simp] theorem Cipher.whip_i (c : Cipher) : c.whip.i = c.i := by
  have h512 : BitVec.ofNat 8 512 = 0 := by decide
  rw [Cipher.whip_eq, Cipher.advanceStride_i, (Cipher.updates_spec c 512).1, h512]
  simp
@[simp] theorem Cipher.whip_z (c : Cipher) : c.whip.z = c.z := by
  rw [Cipher.whip_eq, Cipher.advanceStride_z, (Cipher.updates_spec c 512).2.1]
@[simp] theorem Cipher.whip_a (c : Cipher) : c.whip.a = c.a := by
  rw [Cipher.whip_eq, Cipher.advanceStride_a, (Cipher.updates_spec c 512).2.2.1]
@[simp] theorem Cipher.whip_w (c : Cipher) : c.whip.w = c.w + 2 := by
  rw [Cipher.whip_eq, Cipher.advanceStride_w, (Cipher.updates_spec c 512).2.2.2]

theorem Cipher.whip_wf {c : Cipher} (h : c.table.wf = true) : c.whip.table.wf = true := by
  rw [Cipher.whip_eq, Cipher.advanceStride_table]
  exact Cipher.updates_wf h 512

theorem Cipher.whip_permutation {c : Cipher} (h : c.table.wf = true) (hp : c.Permutation) : c.whip.Permutation := by
  have := Cipher.updates_permutation h hp 512
  refine this.of_table_eq ?_
  rw [Cipher.whip_eq, Cipher.advanceStride_table]

/-- One pair step of Crush puts the smaller byte at `v` and the greater at `255 - v` (R103). -/
theorem Cipher.t_crushPair {c : Cipher} (h : c.table.wf = true) {v : Nat} (hv : v < 128) (y : Byte) :
    (c.crushPair v).t y =
      if y = BitVec.ofNat 8 v then
        (if c.t (BitVec.ofNat 8 (255 - v)) < c.t (BitVec.ofNat 8 v) then c.t (BitVec.ofNat 8 (255 - v))
          else c.t (BitVec.ofNat 8 v))
      else if y = BitVec.ofNat 8 (255 - v) then
        (if c.t (BitVec.ofNat 8 (255 - v)) < c.t (BitVec.ofNat 8 v) then c.t (BitVec.ofNat 8 v)
          else c.t (BitVec.ofNat 8 (255 - v)))
      else c.t y := by
  have hne : BitVec.ofNat 8 v ≠ BitVec.ofNat 8 (255 - v) := by
    intro he
    have := congrArg BitVec.toNat he
    simp only [BitVec.toNat_ofNat] at this
    omega
  simp only [Cipher.crushPair]
  split <;> rename_i hlt <;>
    simp only [Cipher.t_setT (Cipher.setT_wf h _ _), Cipher.t_setT h] <;>
    by_cases h1 : y = BitVec.ofNat 8 v <;> by_cases h2 : y = BitVec.ofNat 8 (255 - v) <;> simp_all

theorem Cipher.crushPair_wf {c : Cipher} (h : c.table.wf = true) (v : Nat) : (c.crushPair v).table.wf = true := by
  simp only [Cipher.crushPair]
  split <;> exact Cipher.setT_wf (Cipher.setT_wf h _ _) _ _

theorem Cipher.crushPair_permutation {c : Cipher} (h : c.table.wf = true) (hp : c.Permutation) {v : Nat}
    (hv : v < 128) : (c.crushPair v).Permutation := by
  rw [Cipher.permutation_iff] at hp ⊢
  have ht := Cipher.t_crushPair h hv
  by_cases hlt : c.t (BitVec.ofNat 8 (255 - v)) < c.t (BitVec.ofNat 8 v)
  · have : (c.crushPair v).t = c.t ∘ Equiv.swap (BitVec.ofNat 8 v) (BitVec.ofNat 8 (255 - v)) := by
      funext y
      simp only [ht, hlt, if_true, Function.comp_apply, Equiv.swap_apply_def]
      split <;> [rfl; (split <;> rfl)]
    rw [this]
    exact hp.comp (Equiv.swap _ _).bijective
  · have : (c.crushPair v).t = c.t := by
      funext y
      simp only [ht, hlt, if_false]
      split
      · rename_i hy
        rw [hy]
      · split
        · rename_i hy
          rw [hy]
        · rfl
    rwa [this]

/-- A pair step changes no cursor. -/
theorem Cipher.crushPair_cursors (c : Cipher) (v : Nat) :
    (c.crushPair v).i = c.i ∧ (c.crushPair v).j = c.j ∧ (c.crushPair v).k = c.k ∧ (c.crushPair v).z = c.z ∧
      (c.crushPair v).a = c.a ∧ (c.crushPair v).w = c.w := by
  simp only [Cipher.crushPair]
  split <;> exact ⟨rfl, rfl, rfl, rfl, rfl, rfl⟩

/-- No number of pair steps changes a cursor (R103, R16). -/
theorem Cipher.crushPairs_cursors (c : Cipher) : ∀ n : Nat,
    (Cipher.crushPairs n c).i = c.i ∧ (Cipher.crushPairs n c).j = c.j ∧ (Cipher.crushPairs n c).k = c.k ∧
      (Cipher.crushPairs n c).z = c.z ∧ (Cipher.crushPairs n c).a = c.a ∧ (Cipher.crushPairs n c).w = c.w
  | 0 => by
    rw [Cipher.crushPairs]
    exact ⟨rfl, rfl, rfl, rfl, rfl, rfl⟩
  | n + 1 => by
    rw [Cipher.crushPairs]
    obtain ⟨hi, hj, hk, hz, ha, hw⟩ := Cipher.crushPairs_cursors c n
    obtain ⟨hi', hj', hk', hz', ha', hw'⟩ := Cipher.crushPair_cursors (Cipher.crushPairs n c) n
    exact ⟨hi'.trans hi, hj'.trans hj, hk'.trans hk, hz'.trans hz, ha'.trans ha, hw'.trans hw⟩

theorem Cipher.crushPairs_wf {c : Cipher} (h : c.table.wf = true) : ∀ n, (Cipher.crushPairs n c).table.wf = true
  | 0 => by rwa [Cipher.crushPairs]
  | n + 1 => by
    rw [Cipher.crushPairs]
    exact Cipher.crushPair_wf (Cipher.crushPairs_wf h n) n

theorem Cipher.crushPairs_permutation {c : Cipher} (h : c.table.wf = true) (hp : c.Permutation) :
    ∀ n ≤ 128, (Cipher.crushPairs n c).Permutation
  | 0, _ => by rwa [Cipher.crushPairs]
  | n + 1, hn => by
    rw [Cipher.crushPairs]
    exact Cipher.crushPair_permutation (Cipher.crushPairs_wf h n) (Cipher.crushPairs_permutation h hp n (by omega))
      (by omega)

/-- Two slots of different numbers are different. -/
theorem slot_ne {a b : Nat} (ha : a < 256) (hb : b < 256) (h : a ≠ b) : BitVec.ofNat 8 a ≠ BitVec.ofNat 8 b := by
  intro he
  have := congrArg BitVec.toNat he
  simp only [BitVec.toNat_ofNat] at this
  omega

/-- What the first `n` pair steps leave: the done pairs sorted, the slots between them as they were (R103). -/
theorem Cipher.t_crushPairs {c : Cipher} (h : c.table.wf = true) : ∀ n ≤ 128,
    (∀ v < n,
      (Cipher.crushPairs n c).t (BitVec.ofNat 8 v) =
        (if c.t (BitVec.ofNat 8 (255 - v)) < c.t (BitVec.ofNat 8 v) then c.t (BitVec.ofNat 8 (255 - v))
          else c.t (BitVec.ofNat 8 v)) ∧
      (Cipher.crushPairs n c).t (BitVec.ofNat 8 (255 - v)) =
        (if c.t (BitVec.ofNat 8 (255 - v)) < c.t (BitVec.ofNat 8 v) then c.t (BitVec.ofNat 8 v)
          else c.t (BitVec.ofNat 8 (255 - v)))) ∧
    ∀ v, n ≤ v → v ≤ 255 - n → (Cipher.crushPairs n c).t (BitVec.ofNat 8 v) = c.t (BitVec.ofNat 8 v)
  | 0, _ => ⟨fun v hv => absurd hv (by omega), fun _ _ _ => by rw [Cipher.crushPairs]⟩
  | n + 1, hn => by
    obtain ⟨h1, h2⟩ := Cipher.t_crushPairs h n (by omega)
    rw [Cipher.crushPairs]
    have hp := Cipher.t_crushPair (Cipher.crushPairs_wf h n) (v := n) (by omega)
    refine ⟨fun v hv => ?_, fun v hv hv' => ?_⟩
    · by_cases hvn : v = n
      · subst hvn
        rw [hp, hp, if_pos rfl, if_neg (slot_ne (by omega) (by omega) (by omega)), if_pos rfl,
          h2 v (by omega) (by omega), h2 (255 - v) (by omega) (by omega)]
        exact ⟨rfl, rfl⟩
      · rw [hp, hp, if_neg (slot_ne (by omega) (by omega) (by omega)), if_neg (slot_ne (by omega) (by omega) (by omega)),
          if_neg (slot_ne (by omega) (by omega) (by omega)), if_neg (slot_ne (by omega) (by omega) (by omega))]
        exact h1 v (by omega)
    · rw [hp, if_neg (slot_ne (by omega) (by omega) (by omega)), if_neg (slot_ne (by omega) (by omega) (by omega))]
      exact h2 v (by omega) (by omega)

/-- Crush puts the smaller byte of each mirrored pair at `v` and the greater at `255 - v` (R103). -/
theorem Cipher.t_crush {c : Cipher} (h : c.table.wf = true) {v : Nat} (hv : v < 128) :
    c.crush.t (BitVec.ofNat 8 v) =
      (if c.t (BitVec.ofNat 8 (255 - v)) < c.t (BitVec.ofNat 8 v) then c.t (BitVec.ofNat 8 (255 - v))
        else c.t (BitVec.ofNat 8 v)) ∧
    c.crush.t (BitVec.ofNat 8 (255 - v)) =
      (if c.t (BitVec.ofNat 8 (255 - v)) < c.t (BitVec.ofNat 8 v) then c.t (BitVec.ofNat 8 v)
        else c.t (BitVec.ofNat 8 (255 - v))) := by
  rw [Cipher.crush_eq]
  exact (Cipher.t_crushPairs h 128 (le_refl _)).1 v hv

@[simp] theorem Cipher.crush_i (c : Cipher) : c.crush.i = c.i := by
  rw [Cipher.crush_eq, (Cipher.crushPairs_cursors c 128).1]
@[simp] theorem Cipher.crush_j (c : Cipher) : c.crush.j = c.j := by
  rw [Cipher.crush_eq, (Cipher.crushPairs_cursors c 128).2.1]
@[simp] theorem Cipher.crush_k (c : Cipher) : c.crush.k = c.k := by
  rw [Cipher.crush_eq, (Cipher.crushPairs_cursors c 128).2.2.1]
@[simp] theorem Cipher.crush_z (c : Cipher) : c.crush.z = c.z := by
  rw [Cipher.crush_eq, (Cipher.crushPairs_cursors c 128).2.2.2.1]
@[simp] theorem Cipher.crush_a (c : Cipher) : c.crush.a = c.a := by
  rw [Cipher.crush_eq, (Cipher.crushPairs_cursors c 128).2.2.2.2.1]
@[simp] theorem Cipher.crush_w (c : Cipher) : c.crush.w = c.w := by
  rw [Cipher.crush_eq, (Cipher.crushPairs_cursors c 128).2.2.2.2.2]

theorem Cipher.crush_wf {c : Cipher} (h : c.table.wf = true) : c.crush.table.wf = true := by
  rw [Cipher.crush_eq]
  exact Cipher.crushPairs_wf h 128

theorem Cipher.crush_permutation {c : Cipher} (h : c.table.wf = true) (hp : c.Permutation) : c.crush.Permutation := by
  rw [Cipher.crush_eq]
  exact Cipher.crushPairs_permutation h hp 128 (le_refl _)

@[simp] theorem Cipher.clearCount_table (c : Cipher) : c.clearCount.table = c.table := rfl
@[simp] theorem Cipher.clearCount_i (c : Cipher) : c.clearCount.i = c.i := rfl
@[simp] theorem Cipher.clearCount_j (c : Cipher) : c.clearCount.j = c.j := rfl
@[simp] theorem Cipher.clearCount_k (c : Cipher) : c.clearCount.k = c.k := rfl
@[simp] theorem Cipher.clearCount_z (c : Cipher) : c.clearCount.z = c.z := rfl
@[simp] theorem Cipher.clearCount_a (c : Cipher) : c.clearCount.a = 0 := rfl
@[simp] theorem Cipher.clearCount_w (c : Cipher) : c.clearCount.w = c.w := rfl

@[simp] theorem Cipher.shuffle_i (c : Cipher) : c.shuffle.i = c.i := by
  rw [Cipher.shuffle, Cipher.clearCount_i, Cipher.whip_i, Cipher.crush_i, Cipher.whip_i, Cipher.crush_i, Cipher.whip_i]
@[simp] theorem Cipher.shuffle_z (c : Cipher) : c.shuffle.z = c.z := by
  rw [Cipher.shuffle, Cipher.clearCount_z, Cipher.whip_z, Cipher.crush_z, Cipher.whip_z, Cipher.crush_z, Cipher.whip_z]
@[simp] theorem Cipher.shuffle_a (c : Cipher) : c.shuffle.a = 0 := by rw [Cipher.shuffle, Cipher.clearCount_a]
@[simp] theorem Cipher.shuffle_w (c : Cipher) : c.shuffle.w = c.w + 6 := by
  rw [Cipher.shuffle, Cipher.clearCount_w, Cipher.whip_w, Cipher.crush_w, Cipher.whip_w, Cipher.crush_w, Cipher.whip_w,
    BitVec.add_assoc, BitVec.add_assoc]
  rfl

theorem Cipher.shuffle_wf {c : Cipher} (h : c.table.wf = true) : c.shuffle.table.wf = true := by
  rw [Cipher.shuffle, Cipher.clearCount_table]
  exact Cipher.whip_wf (Cipher.crush_wf (Cipher.whip_wf (Cipher.crush_wf (Cipher.whip_wf h))))

theorem Cipher.shuffle_permutation {c : Cipher} (h : c.table.wf = true) (hp : c.Permutation) :
    c.shuffle.Permutation := by
  have h1 := Cipher.whip_wf h
  have p1 := Cipher.whip_permutation h hp
  have h2 := Cipher.crush_wf h1
  have p2 := Cipher.crush_permutation h1 p1
  have h3 := Cipher.whip_wf h2
  have p3 := Cipher.whip_permutation h2 p2
  have p4 := Cipher.crush_permutation h3 p3
  refine (Cipher.whip_permutation (Cipher.crush_wf h3) p4).of_table_eq ?_
  rw [Cipher.shuffle, Cipher.clearCount_table]

/-! ### Live states -/

/-- Adding an even number keeps an odd stride odd (R25). -/
theorem Cipher.strideOdd_add_two {w : Byte} (h : w.toNat % 2 = 1) : (w + 2).toNat % 2 = 1 := by
  have h2 : (2 : Byte).toNat = 2 := rfl
  rw [BitVec.toNat_add, h2]
  omega

/-- The reset Cipher State reads `T[n] = n`. -/
@[simp] theorem Cipher.t_reset (x : Byte) : Cipher.resetValue.t x = x := by
  simp [Cipher.t, Memory.read, Cipher.resetValue, Memory.unlisted]

/-- The reset Cipher State is live. -/
theorem Cipher.reset_live : Cipher.resetValue.Live where
  tableWf := rfl
  permutation := fun v => ⟨v, Cipher.t_reset v, fun y h => by rwa [Cipher.t_reset] at h⟩
  strideOdd := rfl
  countInRange := Nat.zero_le 128

theorem Cipher.Live.update {c : Cipher} (h : c.Live) : c.update.Live :=
  ⟨Cipher.update_wf h.1, Cipher.update_permutation h.1 h.2, h.3, h.4⟩

theorem Cipher.Live.whip {c : Cipher} (h : c.Live) : c.whip.Live :=
  ⟨Cipher.whip_wf h.1, Cipher.whip_permutation h.1 h.2, by
    simpa [Cipher.StrideOdd] using Cipher.strideOdd_add_two h.3, by
    simpa [Cipher.CountInRange] using h.4⟩

theorem Cipher.Live.crush {c : Cipher} (h : c.Live) : c.crush.Live :=
  ⟨Cipher.crush_wf h.1, Cipher.crush_permutation h.1 h.2, by
    simpa [Cipher.StrideOdd] using h.3, by simpa [Cipher.CountInRange] using h.4⟩

theorem Cipher.Live.shuffle {c : Cipher} (h : c.Live) : c.shuffle.Live where
  tableWf := Cipher.shuffle_wf h.1
  permutation := Cipher.shuffle_permutation h.1 h.2
  strideOdd := by
    have := h.whip.crush.whip.crush.whip.3
    rwa [Cipher.shuffle, Cipher.StrideOdd, Cipher.clearCount_w]
  countInRange := by simp [Cipher.CountInRange]

/-! ### Absorption -/

/-- After the entry check the counter is below 128 (R130, R132). -/
theorem Cipher.makeRoom_a_lt {c : Cipher} (h : c.CountInRange) : c.makeRoom.a.toNat < 128 := by
  unfold Cipher.makeRoom Cipher.CountInRange at *
  split
  · simp
  · rename_i hne
    have : c.a.toNat ≠ 128 := fun he => hne (BitVec.eq_of_toNat_eq (by simpa using he))
    omega

theorem Cipher.makeRoom_wf {c : Cipher} (h : c.table.wf = true) : c.makeRoom.table.wf = true := by
  unfold Cipher.makeRoom
  split <;> [exact Cipher.shuffle_wf h; exact h]

theorem Cipher.Live.makeRoom {c : Cipher} (h : c.Live) : c.makeRoom.Live := by
  unfold Cipher.makeRoom
  split <;> [exact h.shuffle; exact h]

/-- Counting one nibble step takes the counter to 1..128 (R130, R132). -/
theorem Cipher.count_a_toNat {c : Cipher} (h : c.a.toNat < 128) : c.count.a.toNat = c.a.toNat + 1 := by
  have h1 : (1 : Byte).toNat = 1 := rfl
  simp only [Cipher.count, BitVec.toNat_add, h1]
  omega

@[simp] theorem Cipher.count_table (c : Cipher) : c.count.table = c.table := rfl
@[simp] theorem Cipher.count_i (c : Cipher) : c.count.i = c.i := rfl
@[simp] theorem Cipher.count_j (c : Cipher) : c.count.j = c.j := rfl
@[simp] theorem Cipher.count_k (c : Cipher) : c.count.k = c.k := rfl
@[simp] theorem Cipher.count_z (c : Cipher) : c.count.z = c.z := rfl
@[simp] theorem Cipher.count_w (c : Cipher) : c.count.w = c.w := rfl
@[simp] theorem Cipher.count_a (c : Cipher) : c.count.a = c.a + 1 := rfl
@[simp] theorem Cipher.t_count (c : Cipher) (x : Byte) : c.count.t x = c.t x := rfl

theorem Cipher.absorbStop_wf {c : Cipher} (h : c.table.wf = true) : c.absorbStop.table.wf = true :=
  Cipher.makeRoom_wf h

theorem Cipher.absorbNibble_wf {c : Cipher} (h : c.table.wf = true) (n : Nibble) :
    (c.absorbNibble n).table.wf = true :=
  Cipher.swap_wf (Cipher.makeRoom_wf h) _ _

theorem Cipher.absorbByte_wf {c : Cipher} (h : c.table.wf = true) (b : Byte) : (c.absorbByte b).table.wf = true :=
  Cipher.absorbNibble_wf (Cipher.absorbNibble_wf h _) _

theorem Cipher.finalP_wf {c : Cipher} (h : c.table.wf = true) (b : Byte) : (c.finalP b).table.wf = true :=
  Cipher.absorbByte_wf (Cipher.absorbStop_wf h) b

/-- AbsorbStop counts in every case: the counter ends in 1..128 (R132). -/
theorem Cipher.absorbStop_a {c : Cipher} (h : c.CountInRange) :
    c.absorbStop.a.toNat = c.makeRoom.a.toNat + 1 :=
  Cipher.count_a_toNat (Cipher.makeRoom_a_lt h)

/-- AbsorbNibble counts in every case: the counter ends in 1..128 (R130). -/
theorem Cipher.absorbNibble_a {c : Cipher} (h : c.CountInRange) (n : Nibble) :
    (c.absorbNibble n).a.toNat = c.makeRoom.a.toNat + 1 :=
  Cipher.count_a_toNat (c := c.makeRoom.swap c.makeRoom.a (128 + n.zeroExtend 8)) (Cipher.makeRoom_a_lt h)

theorem Cipher.Live.absorbStop {c : Cipher} (h : c.Live) : c.absorbStop.Live :=
  ⟨Cipher.absorbStop_wf h.1, h.makeRoom.2.of_table_eq rfl, h.makeRoom.3, by
    have := Cipher.makeRoom_a_lt h.4
    have := Cipher.absorbStop_a h.4
    unfold Cipher.CountInRange
    omega⟩

theorem Cipher.Live.absorbNibble {c : Cipher} (h : c.Live) (n : Nibble) : (c.absorbNibble n).Live :=
  ⟨Cipher.absorbNibble_wf h.1 n,
    (Cipher.swap_permutation h.makeRoom.1 h.makeRoom.2 c.makeRoom.a (128 + n.zeroExtend 8)).of_table_eq rfl,
    h.makeRoom.3, by
    have := Cipher.makeRoom_a_lt h.4
    have := Cipher.absorbNibble_a h.4 n
    unfold Cipher.CountInRange
    omega⟩

theorem Cipher.Live.absorbByte {c : Cipher} (h : c.Live) (b : Byte) : (c.absorbByte b).Live :=
  (h.absorbNibble _).absorbNibble _

theorem Cipher.Live.finalP {c : Cipher} (h : c.Live) (b : Byte) : (c.finalP b).Live := h.absorbStop.absorbByte b

/-- What a nibble step of any kind does to the cursors (R130, R132). -/
theorem Cipher.nibbleStep_cursors (c : Cipher) (x : NibbleStep) (h : c.CountInRange) :
    (c.nibbleStep x).a.toNat = c.makeRoom.a.toNat + 1 ∧ (c.nibbleStep x).i = c.makeRoom.i ∧
      (c.nibbleStep x).j = c.makeRoom.j ∧ (c.nibbleStep x).k = c.makeRoom.k ∧ (c.nibbleStep x).z = c.makeRoom.z ∧
      (c.nibbleStep x).w = c.makeRoom.w := by
  cases x with
  | nibble n => exact ⟨Cipher.absorbNibble_a h n, rfl, rfl, rfl, rfl, rfl⟩
  | stop => exact ⟨Cipher.absorbStop_a h, rfl, rfl, rfl, rfl, rfl⟩

/-! ### Extraction -/

@[simp] theorem Cipher.output_table (c : Cipher) : c.output.table = c.table := rfl
@[simp] theorem Cipher.output_i (c : Cipher) : c.output.i = c.i := rfl
@[simp] theorem Cipher.output_j (c : Cipher) : c.output.j = c.j := rfl
@[simp] theorem Cipher.output_k (c : Cipher) : c.output.k = c.k := rfl
@[simp] theorem Cipher.output_a (c : Cipher) : c.output.a = c.a := rfl
@[simp] theorem Cipher.output_w (c : Cipher) : c.output.w = c.w := rfl
@[simp] theorem Cipher.t_output (c : Cipher) (x : Byte) : c.output.t x = c.t x := rfl

/-- After a flush nothing is pending (R170). -/
@[simp] theorem Cipher.flush_a (c : Cipher) : c.flush.a = 0 := by
  unfold Cipher.flush
  split <;> [assumption; exact c.shuffle_a]

/-- Flushing twice is flushing once. -/
@[simp] theorem Cipher.flush_flush (c : Cipher) : c.flush.flush = c.flush := by
  rw [Cipher.flush, if_pos c.flush_a]

theorem Cipher.flush_of_a_eq_zero {c : Cipher} (h : c.a = 0) : c.flush = c := if_pos h

/-- A drip of a flushed state is the drip of the state itself: one shuffle either way (R158). -/
@[simp] theorem Cipher.dripped_flush (c : Cipher) : c.flush.dripped = c.dripped := by
  simp [Cipher.dripped]

theorem Cipher.flush_wf {c : Cipher} (h : c.table.wf = true) : c.flush.table.wf = true := by
  unfold Cipher.flush
  split <;> [exact h; exact Cipher.shuffle_wf h]

theorem Cipher.Live.flush {c : Cipher} (h : c.Live) : c.flush.Live := by
  unfold Cipher.flush
  split <;> [exact h; exact h.shuffle]

theorem Cipher.Live.output {c : Cipher} (h : c.Live) : c.output.Live := ⟨h.1, h.2.of_table_eq rfl, h.3, h.4⟩

/-- After a Drip nothing is pending (R151). -/
@[simp] theorem Cipher.dripped_a (c : Cipher) : c.dripped.a = 0 := by simp [Cipher.dripped]

theorem Cipher.dripped_wf {c : Cipher} (h : c.table.wf = true) : c.dripped.table.wf = true := by
  rw [Cipher.dripped, Cipher.output_table]
  exact Cipher.update_wf (Cipher.flush_wf h)

theorem Cipher.Live.dripped {c : Cipher} (h : c.Live) : c.dripped.Live := h.flush.update.output

@[simp] theorem Cipher.drip_fst (c : Cipher) : c.drip.1 = c.dripped := by rw [Cipher.drip]
@[simp] theorem Cipher.drip_snd (c : Cipher) : c.drip.2 = c.dripped.z := by rw [Cipher.drip]
@[simp] theorem Cipher.random32_fst (c : Cipher) : c.random32.1 = c.random32State := by rw [Cipher.random32]
@[simp] theorem Cipher.random32_snd (c : Cipher) : c.random32.2 = c.random32Value := by rw [Cipher.random32]

/-- After a Random32 nothing is pending (R171). -/
@[simp] theorem Cipher.random32State_a (c : Cipher) : c.random32State.a = 0 := by
  rw [Cipher.random32State, Cipher.dripped_a]

theorem Cipher.random32State_wf {c : Cipher} (h : c.table.wf = true) : c.random32State.table.wf = true := by
  rw [Cipher.random32State]
  exact Cipher.dripped_wf (Cipher.dripped_wf (Cipher.dripped_wf (Cipher.dripped_wf h)))

theorem Cipher.Live.random32State {c : Cipher} (h : c.Live) : c.random32State.Live := by
  rw [Cipher.random32State]
  exact h.dripped.dripped.dripped.dripped

theorem Cipher.Live.draws {c : Cipher} (h : c.Live) : ∀ n, (Cipher.draws n c).Live
  | 0 => h
  | n + 1 => by
    rw [Cipher.draws, Cipher.random32_fst]
    exact (Cipher.Live.draws h n).random32State

/-! ### Uniform -/

/-- One pass of the loop, by whether its draw is accepted (R172). -/
theorem Cipher.uniformLoop_succ (bound : Word) (fuel : Nat) (c : Cipher) :
    Cipher.uniformLoop bound (fuel + 1) c =
      if uniformAccepts bound c.random32Value then some (c.random32State, c.random32Value % bound)
      else Cipher.uniformLoop bound fuel c.random32State := by
  simp only [Cipher.uniformLoop, Cipher.uniformPass, Cipher.random32_fst, Cipher.random32_snd]
  cases uniformAccepts bound c.random32Value <;> rfl

/-- The loop answers exactly when it ends within the fuel: at draw `n`, with that draw's state and value (R172). -/
theorem Cipher.uniformLoop_eq_some {bound : Word} {fuel : Nat} {c d : Cipher} {r : Word} :
    Cipher.uniformLoop bound fuel c = some (d, r) ↔
      ∃ n < fuel, c.LoopEndsAt bound n ∧ d = Cipher.draws (n + 1) c ∧ r = c.drawValue n % bound := by
  have shift : ∀ n (c : Cipher), Cipher.draws n c.random32State = Cipher.draws (n + 1) c := by
    intro n c
    induction n with
    | zero => rw [Cipher.draws, Cipher.draws, Cipher.draws, Cipher.random32_fst]
    | succ n ih => rw [Cipher.draws, ih, ← Cipher.draws]
  have shiftValue : ∀ n (c : Cipher), c.random32State.drawValue n = c.drawValue (n + 1) := fun n c => by
    rw [Cipher.drawValue, shift, ← Cipher.drawValue]
  have first : ∀ c : Cipher, c.drawValue 0 = c.random32Value := fun c => by
    rw [Cipher.drawValue, Cipher.draws, Cipher.random32_snd]
  induction fuel generalizing c with
  | zero => exact ⟨fun h => (by cases h), fun ⟨n, hn, _⟩ => absurd hn (Nat.not_lt_zero n)⟩
  | succ fuel ih =>
    rw [Cipher.uniformLoop_succ]
    cases ha : uniformAccepts bound c.random32Value with
    | true =>
      rw [if_pos rfl, Option.some.injEq, Prod.mk.injEq]
      constructor
      · rintro ⟨rfl, rfl⟩
        exact ⟨0, Nat.succ_pos _, ⟨fun m hm => absurd hm (Nat.not_lt_zero m), by rw [first, ha]⟩, shift 0 c, by rw [first]⟩
      · rintro ⟨n, -, ⟨hrej, -⟩, rfl, rfl⟩
        cases n with
        | zero => exact ⟨shift 0 c, by rw [first]⟩
        | succ n =>
          have h0 := hrej 0 (Nat.succ_pos n)
          rw [first, ha] at h0
          cases h0
    | false =>
      rw [if_neg Bool.false_ne_true]
      refine ih.trans ?_
      constructor
      · rintro ⟨n, hn, ⟨hrej, hacc⟩, rfl, rfl⟩
        refine ⟨n + 1, Nat.succ_lt_succ hn, ⟨fun m hm => ?_, by rw [← shiftValue, hacc]⟩, shift _ _, by rw [shiftValue]⟩
        cases m with
        | zero => rw [first, ha]
        | succ m => rw [← shiftValue, hrej m (Nat.lt_of_succ_lt_succ hm)]
      · rintro ⟨n, hn, ⟨hrej, hacc⟩, rfl, rfl⟩
        cases n with
        | zero =>
          rw [first, ha] at hacc
          cases hacc
        | succ n =>
          exact ⟨n, Nat.lt_of_succ_lt_succ hn,
            ⟨fun m hm => by rw [shiftValue, hrej (m + 1) (Nat.succ_lt_succ hm)], by rw [shiftValue, hacc]⟩,
            (shift _ _).symm, by rw [shiftValue]⟩

/-- A bound below 2 draws nothing (R172). -/
theorem Cipher.uniform_of_lt (c : Cipher) {bound : Word} (h : bound < 2) (fuel : Nat) :
    c.uniform bound fuel = some (c, 0) := if_pos h

/-- Any two answers of Uniform agree, whatever the fuel (R172). -/
theorem Cipher.uniform_unique {c : Cipher} {bound : Word} {f g : Nat} {x y : Cipher × Word}
    (hf : c.uniform bound f = some x) (hg : c.uniform bound g = some y) : x = y := by
  unfold Cipher.uniform at hf hg
  split at hf
  · rename_i hb
    rw [if_pos hb] at hg
    exact Option.some.inj (hf.symm.trans hg)
  · rename_i hb
    rw [if_neg hb] at hg
    obtain ⟨d, r⟩ := x
    obtain ⟨d', r'⟩ := y
    obtain ⟨n, -, ⟨hn, hacc⟩, rfl, rfl⟩ := Cipher.uniformLoop_eq_some.mp hf
    obtain ⟨m, -, ⟨hm, hacc'⟩, rfl, rfl⟩ := Cipher.uniformLoop_eq_some.mp hg
    have : n = m := by
      rcases Nat.lt_trichotomy n m with h | h | h
      · have := hm n h
        rw [hacc] at this
        cases this
      · exact h
      · have := hn m h
        rw [hacc'] at this
        cases this
    rw [this]

/-- From a live state Uniform leaves a live state. -/
theorem Cipher.Live.uniform {c d : Cipher} {bound r : Word} {fuel : Nat} (h : c.Live)
    (hu : c.uniform bound fuel = some (d, r)) : d.Live := by
  unfold Cipher.uniform at hu
  split at hu
  · cases hu
    exact h
  · obtain ⟨n, -, -, rfl, -⟩ := Cipher.uniformLoop_eq_some.mp hu
    exact h.draws (n + 1)

/-! ### The wiped state -/

/-- The zero table, unfolded (R211). -/
theorem Memory.zeros_eq : Memory.zeros = Memory.tabulate (fun _ => 0) 256 := by delta Memory.zeros; rfl

/-- The wiped table reads 0 everywhere (R211). -/
@[simp] theorem Cipher.t_wiped (x : Byte) : Cipher.wiped.t x = 0 := by
  have hx := x.isLt
  simp only [Cipher.t, Memory.read, Cipher.wiped, Memory.zeros_eq, Memory.lookup_tabulate _ 256 (le_refl _)]
  exact if_pos hx

theorem Cipher.wiped_wf : Cipher.wiped.table.wf = true := by
  simp only [Cipher.wiped, Memory.zeros_eq]
  exact Memory.tabulate_wf _ 256 (le_refl _)

end Sys2Proof.Machine
end

