-- ==== Sys2Proof/Laws/State.lean ====
section
/-! SUPPORT. What every update of State does to every field: one lemma for each, so that no later proof unfolds a
record update. -/

namespace Sys2Proof.Machine

variable (s : State)


@[simp] theorem State.complete_cipher (c : Cipher) : (s.complete c).cipher = c := rfl
@[simp] theorem State.complete_valid (c : Cipher) : (s.complete c).valid = s.valid := rfl
@[simp] theorem State.complete_busy (c : Cipher) : (s.complete c).busy = false := rfl
@[simp] theorem State.complete_latch (c : Cipher) : (s.complete c).latch = none := rfl
@[simp] theorem State.complete_arg (c : Cipher) : (s.complete c).arg = s.arg := rfl
@[simp] theorem State.complete_result (c : Cipher) : (s.complete c).result = s.result := rfl
@[simp] theorem State.complete_errIllegal (c : Cipher) : (s.complete c).errIllegal = s.errIllegal := rfl
@[simp] theorem State.complete_errBusy (c : Cipher) : (s.complete c).errBusy = s.errBusy := rfl
@[simp] theorem State.complete_errInvalid (c : Cipher) : (s.complete c).errInvalid = s.errInvalid := rfl
@[simp] theorem State.complete_build (c : Cipher) : (s.complete c).build = s.build := rfl
@[simp] theorem State.complete_draw (c : Cipher) : (s.complete c).draw = none := rfl
@[simp] theorem State.complete_resetDone (c : Cipher) : (s.complete c).resetDone = s.resetDone := rfl
@[simp] theorem State.complete_program (c : Cipher) : (s.complete c).program = s.program := rfl
@[simp] theorem State.complete_reads (c : Cipher) : (s.complete c).reads = s.reads := rfl
@[simp] theorem State.complete_schedule (c : Cipher) : (s.complete c).schedule = s.schedule := rfl

@[simp] theorem State.completeResult_cipher (c : Cipher) (r : Word) : (s.completeResult c r).cipher = c := rfl
@[simp] theorem State.completeResult_valid (c : Cipher) (r : Word) : (s.completeResult c r).valid = s.valid := rfl
@[simp] theorem State.completeResult_busy (c : Cipher) (r : Word) : (s.completeResult c r).busy = false := rfl
@[simp] theorem State.completeResult_latch (c : Cipher) (r : Word) : (s.completeResult c r).latch = none := rfl
@[simp] theorem State.completeResult_arg (c : Cipher) (r : Word) : (s.completeResult c r).arg = s.arg := rfl
@[simp] theorem State.completeResult_result (c : Cipher) (r : Word) : (s.completeResult c r).result = r := rfl
@[simp] theorem State.completeResult_errIllegal (c : Cipher) (r : Word) : (s.completeResult c r).errIllegal = s.errIllegal := rfl
@[simp] theorem State.completeResult_errBusy (c : Cipher) (r : Word) : (s.completeResult c r).errBusy = s.errBusy := rfl
@[simp] theorem State.completeResult_errInvalid (c : Cipher) (r : Word) : (s.completeResult c r).errInvalid = s.errInvalid := rfl
@[simp] theorem State.completeResult_build (c : Cipher) (r : Word) : (s.completeResult c r).build = s.build := rfl
@[simp] theorem State.completeResult_draw (c : Cipher) (r : Word) : (s.completeResult c r).draw = none := rfl
@[simp] theorem State.completeResult_resetDone (c : Cipher) (r : Word) : (s.completeResult c r).resetDone = s.resetDone := rfl
@[simp] theorem State.completeResult_program (c : Cipher) (r : Word) : (s.completeResult c r).program = s.program := rfl
@[simp] theorem State.completeResult_reads (c : Cipher) (r : Word) : (s.completeResult c r).reads = s.reads := rfl
@[simp] theorem State.completeResult_schedule (c : Cipher) (r : Word) : (s.completeResult c r).schedule = s.schedule := rfl

@[simp] theorem State.latchCommand_cipher (word : Word) : (s.latchCommand word).cipher = s.cipher := rfl
@[simp] theorem State.latchCommand_valid (word : Word) : (s.latchCommand word).valid = s.valid := rfl
@[simp] theorem State.latchCommand_busy (word : Word) : (s.latchCommand word).busy = true := rfl
@[simp] theorem State.latchCommand_latch (word : Word) : (s.latchCommand word).latch = some { word := word, bound := s.arg } := rfl
@[simp] theorem State.latchCommand_arg (word : Word) : (s.latchCommand word).arg = s.arg := rfl
@[simp] theorem State.latchCommand_result (word : Word) : (s.latchCommand word).result = s.result := rfl
@[simp] theorem State.latchCommand_errIllegal (word : Word) : (s.latchCommand word).errIllegal = s.errIllegal := rfl
@[simp] theorem State.latchCommand_errBusy (word : Word) : (s.latchCommand word).errBusy = s.errBusy := rfl
@[simp] theorem State.latchCommand_errInvalid (word : Word) : (s.latchCommand word).errInvalid = s.errInvalid := rfl
@[simp] theorem State.latchCommand_build (word : Word) : (s.latchCommand word).build = s.build := rfl
@[simp] theorem State.latchCommand_draw (word : Word) : (s.latchCommand word).draw = s.draw := rfl
@[simp] theorem State.latchCommand_resetDone (word : Word) : (s.latchCommand word).resetDone = s.resetDone := rfl
@[simp] theorem State.latchCommand_program (word : Word) : (s.latchCommand word).program = s.program := rfl
@[simp] theorem State.latchCommand_reads (word : Word) : (s.latchCommand word).reads = s.reads := rfl
@[simp] theorem State.latchCommand_schedule (word : Word) : (s.latchCommand word).schedule = s.schedule := rfl

@[simp] theorem State.clearErrors_cipher (v : Word) : (s.clearErrors v).cipher = s.cipher := rfl
@[simp] theorem State.clearErrors_valid (v : Word) : (s.clearErrors v).valid = s.valid := rfl
@[simp] theorem State.clearErrors_busy (v : Word) : (s.clearErrors v).busy = s.busy := rfl
@[simp] theorem State.clearErrors_latch (v : Word) : (s.clearErrors v).latch = s.latch := rfl
@[simp] theorem State.clearErrors_arg (v : Word) : (s.clearErrors v).arg = s.arg := rfl
@[simp] theorem State.clearErrors_result (v : Word) : (s.clearErrors v).result = s.result := rfl
@[simp] theorem State.clearErrors_errIllegal (v : Word) : (s.clearErrors v).errIllegal = (s.errIllegal && !v.getLsbD 8) := rfl
@[simp] theorem State.clearErrors_errBusy (v : Word) : (s.clearErrors v).errBusy = (s.errBusy && !v.getLsbD 9) := rfl
@[simp] theorem State.clearErrors_errInvalid (v : Word) : (s.clearErrors v).errInvalid = (s.errInvalid && !v.getLsbD 10) := rfl
@[simp] theorem State.clearErrors_build (v : Word) : (s.clearErrors v).build = s.build := rfl
@[simp] theorem State.clearErrors_draw (v : Word) : (s.clearErrors v).draw = s.draw := rfl
@[simp] theorem State.clearErrors_resetDone (v : Word) : (s.clearErrors v).resetDone = s.resetDone := rfl
@[simp] theorem State.clearErrors_program (v : Word) : (s.clearErrors v).program = s.program := rfl
@[simp] theorem State.clearErrors_reads (v : Word) : (s.clearErrors v).reads = s.reads := rfl
@[simp] theorem State.clearErrors_schedule (v : Word) : (s.clearErrors v).schedule = s.schedule := rfl

@[simp] theorem State.hardReset_cipher : (s.hardReset).cipher = Cipher.resetValue := rfl
@[simp] theorem State.hardReset_valid : (s.hardReset).valid = true := rfl
@[simp] theorem State.hardReset_busy : (s.hardReset).busy = false := rfl
@[simp] theorem State.hardReset_latch : (s.hardReset).latch = none := rfl
@[simp] theorem State.hardReset_arg : (s.hardReset).arg = 0 := rfl
@[simp] theorem State.hardReset_result : (s.hardReset).result = 0 := rfl
@[simp] theorem State.hardReset_errIllegal : (s.hardReset).errIllegal = false := rfl
@[simp] theorem State.hardReset_errBusy : (s.hardReset).errBusy = false := rfl
@[simp] theorem State.hardReset_errInvalid : (s.hardReset).errInvalid = false := rfl
@[simp] theorem State.hardReset_build : (s.hardReset).build = s.build := rfl
@[simp] theorem State.hardReset_draw : (s.hardReset).draw = none := rfl
@[simp] theorem State.hardReset_resetDone : (s.hardReset).resetDone = true := rfl
@[simp] theorem State.hardReset_program : (s.hardReset).program = s.program := rfl
@[simp] theorem State.hardReset_reads : (s.hardReset).reads = s.reads := rfl
@[simp] theorem State.hardReset_schedule : (s.hardReset).schedule = s.schedule := rfl

@[simp] theorem State.losePower_cipher : (s.losePower).cipher = s.cipher := rfl
@[simp] theorem State.losePower_valid : (s.losePower).valid = s.valid := rfl
@[simp] theorem State.losePower_busy : (s.losePower).busy = s.busy := rfl
@[simp] theorem State.losePower_latch : (s.losePower).latch = s.latch := rfl
@[simp] theorem State.losePower_arg : (s.losePower).arg = s.arg := rfl
@[simp] theorem State.losePower_result : (s.losePower).result = s.result := rfl
@[simp] theorem State.losePower_errIllegal : (s.losePower).errIllegal = s.errIllegal := rfl
@[simp] theorem State.losePower_errBusy : (s.losePower).errBusy = s.errBusy := rfl
@[simp] theorem State.losePower_errInvalid : (s.losePower).errInvalid = s.errInvalid := rfl
@[simp] theorem State.losePower_build : (s.losePower).build = s.build := rfl
@[simp] theorem State.losePower_draw : (s.losePower).draw = s.draw := rfl
@[simp] theorem State.losePower_resetDone : (s.losePower).resetDone = false := rfl
@[simp] theorem State.losePower_program : (s.losePower).program = s.program := rfl
@[simp] theorem State.losePower_reads : (s.losePower).reads = s.reads := rfl
@[simp] theorem State.losePower_schedule : (s.losePower).schedule = s.schedule := rfl

@[simp] theorem State.hostDone_cipher (rest : List HostOp) : (s.hostDone rest).cipher = s.cipher := rfl
@[simp] theorem State.hostDone_valid (rest : List HostOp) : (s.hostDone rest).valid = s.valid := rfl
@[simp] theorem State.hostDone_busy (rest : List HostOp) : (s.hostDone rest).busy = s.busy := rfl
@[simp] theorem State.hostDone_latch (rest : List HostOp) : (s.hostDone rest).latch = s.latch := rfl
@[simp] theorem State.hostDone_arg (rest : List HostOp) : (s.hostDone rest).arg = s.arg := rfl
@[simp] theorem State.hostDone_result (rest : List HostOp) : (s.hostDone rest).result = s.result := rfl
@[simp] theorem State.hostDone_errIllegal (rest : List HostOp) : (s.hostDone rest).errIllegal = s.errIllegal := rfl
@[simp] theorem State.hostDone_errBusy (rest : List HostOp) : (s.hostDone rest).errBusy = s.errBusy := rfl
@[simp] theorem State.hostDone_errInvalid (rest : List HostOp) : (s.hostDone rest).errInvalid = s.errInvalid := rfl
@[simp] theorem State.hostDone_build (rest : List HostOp) : (s.hostDone rest).build = s.build := rfl
@[simp] theorem State.hostDone_draw (rest : List HostOp) : (s.hostDone rest).draw = s.draw := rfl
@[simp] theorem State.hostDone_resetDone (rest : List HostOp) : (s.hostDone rest).resetDone = s.resetDone := rfl
@[simp] theorem State.hostDone_program (rest : List HostOp) : (s.hostDone rest).program = rest := rfl
@[simp] theorem State.hostDone_reads (rest : List HostOp) : (s.hostDone rest).reads = s.reads := rfl
@[simp] theorem State.hostDone_schedule (rest : List HostOp) : (s.hostDone rest).schedule = s.schedule := rfl

@[simp] theorem State.keepRead_cipher (v : Word) : (s.keepRead v).cipher = s.cipher := rfl
@[simp] theorem State.keepRead_valid (v : Word) : (s.keepRead v).valid = s.valid := rfl
@[simp] theorem State.keepRead_busy (v : Word) : (s.keepRead v).busy = s.busy := rfl
@[simp] theorem State.keepRead_latch (v : Word) : (s.keepRead v).latch = s.latch := rfl
@[simp] theorem State.keepRead_arg (v : Word) : (s.keepRead v).arg = s.arg := rfl
@[simp] theorem State.keepRead_result (v : Word) : (s.keepRead v).result = s.result := rfl
@[simp] theorem State.keepRead_errIllegal (v : Word) : (s.keepRead v).errIllegal = s.errIllegal := rfl
@[simp] theorem State.keepRead_errBusy (v : Word) : (s.keepRead v).errBusy = s.errBusy := rfl
@[simp] theorem State.keepRead_errInvalid (v : Word) : (s.keepRead v).errInvalid = s.errInvalid := rfl
@[simp] theorem State.keepRead_build (v : Word) : (s.keepRead v).build = s.build := rfl
@[simp] theorem State.keepRead_draw (v : Word) : (s.keepRead v).draw = s.draw := rfl
@[simp] theorem State.keepRead_resetDone (v : Word) : (s.keepRead v).resetDone = s.resetDone := rfl
@[simp] theorem State.keepRead_program (v : Word) : (s.keepRead v).program = s.program := rfl
@[simp] theorem State.keepRead_reads (v : Word) : (s.keepRead v).reads = s.reads ++ [v] := rfl
@[simp] theorem State.keepRead_schedule (v : Word) : (s.keepRead v).schedule = s.schedule := rfl

@[simp] theorem State.dropTurn_cipher (rest : List Turn) : (s.dropTurn rest).cipher = s.cipher := rfl
@[simp] theorem State.dropTurn_valid (rest : List Turn) : (s.dropTurn rest).valid = s.valid := rfl
@[simp] theorem State.dropTurn_busy (rest : List Turn) : (s.dropTurn rest).busy = s.busy := rfl
@[simp] theorem State.dropTurn_latch (rest : List Turn) : (s.dropTurn rest).latch = s.latch := rfl
@[simp] theorem State.dropTurn_arg (rest : List Turn) : (s.dropTurn rest).arg = s.arg := rfl
@[simp] theorem State.dropTurn_result (rest : List Turn) : (s.dropTurn rest).result = s.result := rfl
@[simp] theorem State.dropTurn_errIllegal (rest : List Turn) : (s.dropTurn rest).errIllegal = s.errIllegal := rfl
@[simp] theorem State.dropTurn_errBusy (rest : List Turn) : (s.dropTurn rest).errBusy = s.errBusy := rfl
@[simp] theorem State.dropTurn_errInvalid (rest : List Turn) : (s.dropTurn rest).errInvalid = s.errInvalid := rfl
@[simp] theorem State.dropTurn_build (rest : List Turn) : (s.dropTurn rest).build = s.build := rfl
@[simp] theorem State.dropTurn_draw (rest : List Turn) : (s.dropTurn rest).draw = s.draw := rfl
@[simp] theorem State.dropTurn_resetDone (rest : List Turn) : (s.dropTurn rest).resetDone = s.resetDone := rfl
@[simp] theorem State.dropTurn_program (rest : List Turn) : (s.dropTurn rest).program = s.program := rfl
@[simp] theorem State.dropTurn_reads (rest : List Turn) : (s.dropTurn rest).reads = s.reads := rfl
@[simp] theorem State.dropTurn_schedule (rest : List Turn) : (s.dropTurn rest).schedule = rest := rfl

@[simp] theorem State.loadCommand_cipher (word : Word) : (s.loadCommand word).cipher = s.cipher := rfl
@[simp] theorem State.loadCommand_valid (word : Word) : (s.loadCommand word).valid = s.valid := rfl
@[simp] theorem State.loadCommand_busy (word : Word) : (s.loadCommand word).busy = true := rfl
@[simp] theorem State.loadCommand_latch (word : Word) : (s.loadCommand word).latch = some { word := word, bound := s.arg } := rfl
@[simp] theorem State.loadCommand_arg (word : Word) : (s.loadCommand word).arg = s.arg := rfl
@[simp] theorem State.loadCommand_result (word : Word) : (s.loadCommand word).result = s.result := rfl
@[simp] theorem State.loadCommand_errIllegal (word : Word) : (s.loadCommand word).errIllegal = s.errIllegal := rfl
@[simp] theorem State.loadCommand_errBusy (word : Word) : (s.loadCommand word).errBusy = s.errBusy := rfl
@[simp] theorem State.loadCommand_errInvalid (word : Word) : (s.loadCommand word).errInvalid = s.errInvalid := rfl
@[simp] theorem State.loadCommand_build (word : Word) : (s.loadCommand word).build = s.build := rfl
@[simp] theorem State.loadCommand_draw (word : Word) : (s.loadCommand word).draw = none := rfl
@[simp] theorem State.loadCommand_resetDone (word : Word) : (s.loadCommand word).resetDone = true := rfl
@[simp] theorem State.loadCommand_program (word : Word) : (s.loadCommand word).program = s.program := rfl
@[simp] theorem State.loadCommand_reads (word : Word) : (s.loadCommand word).reads = s.reads := rfl
@[simp] theorem State.loadCommand_schedule (word : Word) : (s.loadCommand word).schedule = .engine :: s.schedule := rfl

@[simp] theorem State.raise_cipher (e : Err) : (s.raise e).cipher = s.cipher := by cases e <;> rfl
@[simp] theorem State.raise_valid (e : Err) : (s.raise e).valid = s.valid := by cases e <;> rfl
@[simp] theorem State.raise_busy (e : Err) : (s.raise e).busy = s.busy := by cases e <;> rfl
@[simp] theorem State.raise_latch (e : Err) : (s.raise e).latch = s.latch := by cases e <;> rfl
@[simp] theorem State.raise_arg (e : Err) : (s.raise e).arg = s.arg := by cases e <;> rfl
@[simp] theorem State.raise_result (e : Err) : (s.raise e).result = s.result := by cases e <;> rfl
@[simp] theorem State.raise_build (e : Err) : (s.raise e).build = s.build := by cases e <;> rfl
@[simp] theorem State.raise_draw (e : Err) : (s.raise e).draw = s.draw := by cases e <;> rfl
@[simp] theorem State.raise_resetDone (e : Err) : (s.raise e).resetDone = s.resetDone := by cases e <;> rfl
@[simp] theorem State.raise_program (e : Err) : (s.raise e).program = s.program := by cases e <;> rfl
@[simp] theorem State.raise_reads (e : Err) : (s.raise e).reads = s.reads := by cases e <;> rfl
@[simp] theorem State.raise_schedule (e : Err) : (s.raise e).schedule = s.schedule := by cases e <;> rfl
@[simp] theorem State.raise_errIllegal (e : Err) : (s.raise e).errIllegal = (s.errIllegal || decide (e = .illegal)) := by
  cases e <;> simp [State.raise]
@[simp] theorem State.raise_errBusy (e : Err) : (s.raise e).errBusy = (s.errBusy || decide (e = .busy)) := by
  cases e <;> simp [State.raise]
@[simp] theorem State.raise_errInvalid (e : Err) : (s.raise e).errInvalid = (s.errInvalid || decide (e = .invalid)) := by
  cases e <;> simp [State.raise]

end Sys2Proof.Machine
end

