-- ==== Sys2Proof/Laws/Step.lean ====
section
/-! SUPPORT. What a command, a turn and a step can do, said once: the inversion lemmas that later proofs cite instead of
unfolding `exec` and `step`. -/

namespace Sys2Proof.Machine

/-- UNIFORM's working copy starts as E (R172). -/
@[simp] theorem State.working_of_draw_none {s : State} (h : s.draw = none) : s.working = s.cipher := by
  simp [State.working, h]

/-- While a loop is in progress the working copy is the one it left (R172). -/
@[simp] theorem State.working_of_draw_some {s : State} {c : Cipher} (h : s.draw = some c) : s.working = c := by
  simp [State.working, h]

/-- One pass of UNIFORM on the device, by whether its draw is accepted (R172). -/
theorem State.uniformPass_eq (s : State) (c : Cipher) (bound : Word) :
    s.uniformPass c bound =
      if uniformAccepts bound c.random32.2 then s.completeResult c.random32.1 (c.random32.2 % bound)
      else { s with draw := some c.random32.1 } := by
  unfold State.uniformPass Cipher.uniformPass
  cases uniformAccepts bound c.random32.2 <;> rfl

/-- Completing a command is the frame of every command but INIT and WIPE. -/
theorem State.complete_frame (s : State) (c : Cipher) : s.CommandFrame (s.complete c) := by
  constructor <;> rfl

/-- The same with RESULT. -/
theorem State.completeResult_frame (s : State) (c : Cipher) (r : Word) : s.CommandFrame (s.completeResult c r) := by
  constructor <;> rfl

/-- What `exec` can do when it answers a next state: complete with a new Cipher State, complete with a RESULT as well,
reset, wipe, or reject one draw of UNIFORM. -/
theorem exec_cases {i : Instr} {s t : State} (h : exec i s = .next t) :
    (writesResult i = false ∧ ∃ c, t = s.complete c) ∨
    (writesResult i = true ∧ i ≠ .init ∧ i ≠ .wipe ∧ ∃ c r, t = s.completeResult c r) ∨
    (i = .init ∧ t = { s.completeResult Cipher.reset 0 with valid := true }) ∨
    (i = .wipe ∧ t = { s.completeResult Cipher.wiped 0 with arg := 0, valid := false }) ∨
    (i = .uniform ∧ ∃ l, s.latch = some l ∧ 2 ≤ l.bound.toNat ∧ uniformAccepts l.bound s.working.random32.2 = false ∧
      t = { s with draw := some s.working.random32.1 }) := by
  cases i with
  | nop => exact .inl ⟨rfl, _, (Host.Outcome.next.inj h).symm⟩
  | absorb b => exact .inl ⟨rfl, _, (Host.Outcome.next.inj h).symm⟩
  | absorbStop => exact .inl ⟨rfl, _, (Host.Outcome.next.inj h).symm⟩
  | flush => exact .inl ⟨rfl, _, (Host.Outcome.next.inj h).symm⟩
  | final len => exact .inl ⟨rfl, _, (Host.Outcome.next.inj h).symm⟩
  | update => exact .inl ⟨rfl, _, (Host.Outcome.next.inj h).symm⟩
  | whip => exact .inl ⟨rfl, _, (Host.Outcome.next.inj h).symm⟩
  | crush => exact .inl ⟨rfl, _, (Host.Outcome.next.inj h).symm⟩
  | shuffle => exact .inl ⟨rfl, _, (Host.Outcome.next.inj h).symm⟩
  | absorbNibble n => exact .inl ⟨rfl, _, (Host.Outcome.next.inj h).symm⟩
  | drip => exact .inr (.inl ⟨rfl, by simp, by simp, _, _, (Host.Outcome.next.inj h).symm⟩)
  | random32 => exact .inr (.inl ⟨rfl, by simp, by simp, _, _, (Host.Outcome.next.inj h).symm⟩)
  | crypt b => exact .inr (.inl ⟨rfl, by simp, by simp, _, _, (Host.Outcome.next.inj h).symm⟩)
  | output => exact .inr (.inl ⟨rfl, by simp, by simp, _, _, (Host.Outcome.next.inj h).symm⟩)
  | init => exact .inr (.inr (.inl ⟨rfl, (Host.Outcome.next.inj h).symm⟩))
  | wipe => exact .inr (.inr (.inr (.inl ⟨rfl, (Host.Outcome.next.inj h).symm⟩)))
  | uniform =>
    simp only [exec, execUniform] at h
    split at h
    · cases h
    · rename_i l hl
      split at h
      · exact .inr (.inl ⟨rfl, by simp, by simp, _, _, (Host.Outcome.next.inj h).symm⟩)
      · rename_i hb
        have h := Host.Outcome.next.inj h
        have hb' : 2 ≤ l.bound.toNat := by
          have h2 : (2 : Word).toNat = 2 := rfl
          have : ¬ l.bound.toNat < (2 : Word).toNat := hb
          omega
        rw [State.uniformPass_eq] at h
        split at h
        · exact .inr (.inl ⟨rfl, by simp, by simp, _, _, h.symm⟩)
        · rename_i ha
          exact .inr (.inr (.inr (.inr ⟨rfl, l, hl, hb', by simpa using ha, h.symm⟩)))

/-- What a command asks of the device, computed from E, LATCH and the working copy alone (R43, R206). -/
inductive Effect where
  | done (c : Cipher)
  | doneResult (c : Cipher) (r : Word)
  | init
  | wipe
  | redraw (c : Cipher)
  | stuck
deriving DecidableEq, Repr

/-- The effect applied to a device. -/
def Effect.apply (s : State) : Effect → Host.Outcome State Fault Refusal
  | .done c => .next (s.complete c)
  | .doneResult c r => .next (s.completeResult c r)
  | .init => .next { s.completeResult Cipher.reset 0 with valid := true }
  | .wipe => .next { s.completeResult Cipher.wiped 0 with arg := 0, valid := false }
  | .redraw c => .next { s with draw := some c }
  | .stuck => .fault .noCommandLatched

/-- One pass of UNIFORM as an effect (R172). -/
def uniformEffect (e c : Cipher) (bound : Word) : Effect :=
  if bound < 2 then .doneResult e 0
  else if uniformAccepts bound c.random32Value then .doneResult c.random32State (c.random32Value % bound)
  else .redraw c.random32State

/-- The effect of every command. -/
def effectOf (e : Cipher) (l : Option Latch) (d : Option Cipher) : Instr → Effect
  | .nop => .done e
  | .init => .init
  | .absorb b => .done (e.absorbByte b)
  | .absorbStop => .done e.absorbStop
  | .flush => .done e.flush
  | .final len => .done (e.finalP len)
  | .drip => .doneResult e.dripped (zext32 e.dripped.z)
  | .random32 => .doneResult e.random32State e.random32Value
  | .crypt b => .doneResult e.dripped (zext32 (b ^^^ e.dripped.z))
  | .uniform => match l with | none => .stuck | some l => uniformEffect e (d.getD e) l.bound
  | .wipe => .wipe
  | .update => .done e.update
  | .whip => .done e.whip
  | .crush => .done e.crush
  | .shuffle => .done e.shuffle
  | .absorbNibble n => .done (e.absorbNibble n)
  | .output => .doneResult e.output (zext32 e.output.z)

/-- A command is its effect, applied: so it depends on E, LATCH and the working copy only, and its frame is the
frame of the effect. -/
theorem exec_eq_effect (i : Instr) (s : State) : exec i s = (effectOf s.cipher s.latch s.draw i).apply s := by
  cases i with
  | uniform =>
    simp only [exec, execUniform, effectOf]
    cases s.latch with
    | none => rfl
    | some l =>
      have hw : s.working = s.draw.getD s.cipher := by
        unfold State.working
        cases s.draw <;> rfl
      simp only [uniformEffect, State.uniformPass_eq, Cipher.random32_fst, Cipher.random32_snd, hw]
      split
      · rfl
      · split <;> rfl
  | drip => simp only [exec, execDrip, effectOf, Cipher.drip_fst, Cipher.drip_snd, Effect.apply]
  | crypt b => simp only [exec, execCrypt, effectOf, Cipher.drip_fst, Cipher.drip_snd, Effect.apply]
  | random32 => simp only [exec, execRandom32, effectOf, Cipher.random32_fst, Cipher.random32_snd, Effect.apply]
  | nop => simp only [exec, execNop, effectOf, Effect.apply]
  | init => simp only [exec, execInit, effectOf, Effect.apply]
  | absorb b => simp only [exec, execAbsorb, effectOf, Effect.apply]
  | absorbStop => simp only [exec, execAbsorbStop, effectOf, Effect.apply]
  | flush => simp only [exec, execFlush, effectOf, Effect.apply]
  | final len => simp only [exec, execFinal, effectOf, Effect.apply]
  | wipe => simp only [exec, execWipe, effectOf, Effect.apply]
  | update => simp only [exec, execUpdate, effectOf, Effect.apply]
  | whip => simp only [exec, execWhip, effectOf, Effect.apply]
  | crush => simp only [exec, execCrush, effectOf, Effect.apply]
  | shuffle => simp only [exec, execShuffle, effectOf, Effect.apply]
  | absorbNibble n => simp only [exec, execAbsorbNibble, effectOf, Effect.apply]
  | output => simp only [exec, execOutput, effectOf, Effect.apply]

/-- A live Cipher State stays live through every command but WIPE. -/
theorem exec_live {i : Instr} {s t : State} (h : exec i s = .next t) (hl : s.cipher.Live) (hw : s.working.Live)
    (hi : i ≠ .wipe) : t.cipher.Live := by
  have done : ∀ c : Cipher, Host.Outcome.next (φ := Fault) (ρ := Refusal) (s.complete c) = .next t → c.Live →
      t.cipher.Live := fun c h hc => Host.Outcome.next.inj h ▸ hc
  have doneResult : ∀ (c : Cipher) (r : Word),
      Host.Outcome.next (φ := Fault) (ρ := Refusal) (s.completeResult c r) = .next t → c.Live → t.cipher.Live :=
    fun c r h hc => Host.Outcome.next.inj h ▸ hc
  cases i with
  | nop => exact done _ h hl
  | absorb b => exact done _ h (hl.absorbByte b)
  | absorbStop => exact done _ h (hl.absorbStop)
  | flush => exact done _ h (hl.flush)
  | final len => exact done _ h (hl.finalP len)
  | update => exact done _ h (hl.update)
  | whip => exact done _ h (hl.whip)
  | crush => exact done _ h (hl.crush)
  | shuffle => exact done _ h (hl.shuffle)
  | absorbNibble n => exact done _ h (hl.absorbNibble n)
  | drip => exact doneResult _ _ h (hl.dripped)
  | random32 => exact doneResult s.cipher.random32State _ h hl.random32State
  | crypt b => exact doneResult _ _ h (hl.dripped)
  | output => exact doneResult _ _ h (hl.output)
  | init => exact Host.Outcome.next.inj h ▸ Cipher.reset_live
  | wipe => exact absurd rfl hi
  | uniform =>
    simp only [exec, execUniform] at h
    split at h
    · cases h
    · split at h
      · exact Host.Outcome.next.inj h ▸ hl
      · have h := Host.Outcome.next.inj h
        rw [State.uniformPass_eq] at h
        split at h
        · rw [← h, State.completeResult_cipher, Cipher.random32_fst]
          exact hw.random32State
        · exact h ▸ hl

/-- What the acceptance procedure can do (R222): raise one of the three errors, or latch the word. -/
theorem State.accept_cases (s : State) (w : Word) :
    (s.busy = true ∧ s.accept w = s.raise .busy) ∨
    (s.busy = false ∧ (∃ why, decode s.build.primitives w = .illegal why) ∧ s.accept w = s.raise .illegal) ∨
    (s.busy = false ∧ ∃ i, decode s.build.primitives w = .cmd i ∧
      ((s.valid = false ∧ legalWhileWiped i = false ∧ s.accept w = s.raise .invalid) ∨
       ((s.valid = true ∨ legalWhileWiped i = true) ∧ s.accept w = s.latchCommand w))) := by
  cases hb : s.busy with
  | true => exact .inl ⟨rfl, by simp [State.accept, hb]⟩
  | false =>
    cases hd : decode s.build.primitives w with
    | illegal why => exact .inr (.inl ⟨rfl, ⟨why, rfl⟩, by simp [State.accept, hb, hd]⟩)
    | cmd i =>
      refine .inr (.inr ⟨rfl, i, rfl, ?_⟩)
      cases hv : s.valid <;> cases hl : legalWhileWiped i <;> simp [State.accept, hb, hd, hv, hl]

/-- What a Host register write can do (R33 to R41). -/
theorem State.regWrite_cases (s : State) (off : Nat) (v : Word) :
    (off = 0x000 ∧ s.regWrite off v = s.accept v) ∨ (off = 0x004 ∧ s.regWrite off v = s.clearErrors v) ∨
    (off = 0x008 ∧ s.busy = true ∧ s.regWrite off v = s.raise .busy) ∨
    (off = 0x008 ∧ s.busy = false ∧ s.regWrite off v = { s with arg := v }) ∨
    (off ≠ 0x000 ∧ off ≠ 0x004 ∧ off ≠ 0x008 ∧ s.regWrite off v = s) := by
  unfold State.regWrite offCmd offStatus offArg State.writeArg
  split
  · rename_i h
    exact .inl ⟨h, rfl⟩
  · split
    · rename_i h
      exact .inr (.inl ⟨h, rfl⟩)
    · split
      · rename_i h
        cases hb : s.busy with
        | true => exact .inr (.inr (.inl ⟨h, rfl, rfl⟩))
        | false => exact .inr (.inr (.inr (.inl ⟨h, rfl, rfl⟩)))
      · rename_i h0 h4 h8
        exact .inr (.inr (.inr (.inr ⟨h0, h4, h8, rfl⟩)))

/-- An aligned word access below 0x200 is inside the interface (R53). -/
theorem checkAccess_inside {off : Nat} (h : off < 0x200) (h4 : off % 4 = 0) : checkAccess .word off = .inside := by
  simp only [checkAccess, offEnd, show ¬ (0x200 ≤ off) by omega, h4, if_false, and_self, if_true]

/-- What a Host turn can do: nothing, poll, read a register, or write one. -/
theorem State.hostTurn_cases {s t : State} (h : s.hostTurn = .next t) :
    (s.program = [] ∧ t = s) ∨
    ∃ op rest, s.program = op :: rest ∧ s.resetDone = true ∧
      ((op = .wait ∧ s.busy = true ∧ t = s) ∨ (op = .wait ∧ s.busy = false ∧ t = s.hostDone rest) ∨
       (∃ off, op = .read .word off ∧ t = (s.hostDone rest).keepRead (s.regRead off)) ∨
       (∃ off v, op = .write .word off v ∧ t = (s.regWrite off v).hostDone rest)) := by
  unfold State.hostTurn at h
  split at h
  · rename_i hp
    exact .inl ⟨hp, (Host.Outcome.next.inj h).symm⟩
  · rename_i op rest hp
    refine .inr ⟨op, rest, hp, ?_⟩
    have hword : ∀ {w : Width} {off : Nat}, checkAccess w off = .inside → w = .word := by
      intro w off hc
      unfold checkAccess at hc
      split at hc
      · cases hc
      · split at hc
        · rename_i hw
          exact hw.1
        · cases hc
    split at h
    · cases h
    · rename_i hr
      refine ⟨by simpa using hr, ?_⟩
      cases op with
      | wait =>
        have hbit : (s.regRead offStatus).getLsbD 0 = s.busy := by
          simp only [State.regRead, offStatus, offCmd, if_true, show ¬ ((0x004 : Nat) = 0x000) by decide, if_false,
            State.statusWord, flagBit]
          cases s.busy <;> cases s.valid <;> cases s.errIllegal <;> cases s.errBusy <;> cases s.errInvalid <;> decide
        simp only [hbit] at h
        split at h
        · rename_i hb
          exact .inl ⟨rfl, hb, (Host.Outcome.next.inj h).symm⟩
        · rename_i hb
          exact .inr (.inl ⟨rfl, by simpa using hb, (Host.Outcome.next.inj h).symm⟩)
      | read w off =>
        simp only at h
        split at h
        · cases h
        · cases h
        · rename_i hc
          exact .inr (.inr (.inl ⟨off, by rw [hword hc], (Host.Outcome.next.inj h).symm⟩))
      | write w off v =>
        simp only at h
        split at h
        · cases h
        · cases h
        · rename_i hc
          exact .inr (.inr (.inr ⟨off, v, by rw [hword hc], (Host.Outcome.next.inj h).symm⟩))

/-- What an Engine turn can do: nothing while idle, else the latched command. -/
theorem State.engineTurn_cases {s t : State} (h : s.engineTurn = .next t) :
    s.resetDone = true ∧
      ((s.busy = false ∧ t = s) ∨ (s.busy = true ∧ ∃ i, s.fetch = some i ∧ exec i s = .next t)) := by
  unfold State.engineTurn at h
  split at h
  · cases h
  · rename_i hr
    refine ⟨by simpa using hr, ?_⟩
    split at h
    · rename_i hb
      split at h
      · cases h
      · rename_i i hf
        exact .inr ⟨hb, i, hf, h⟩
    · rename_i hb
      exact .inl ⟨by simpa using hb, (Host.Outcome.next.inj h).symm⟩

/-- The state the mover moves from: its own turn is off the schedule. -/
def State.afterTurn (s : State) : State := s.dropTurn s.schedule.tail

/-- A step is the turn of the mover, from the state without that turn. -/
theorem step_eq (s : State) : step s = s.afterTurn.runTurn s.mover := by
  unfold step State.nextTurn State.afterTurn State.mover
  cases h : s.schedule with
  | nil =>
    have : s.dropTurn [].tail = s := by
      cases s
      simp_all [State.dropTurn]
    rw [List.tail_nil] at this
    rw [List.tail_nil, this]
  | cons t rest => rfl

@[simp] theorem State.afterTurn_fetch (s : State) : s.afterTurn.fetch = s.fetch := rfl
@[simp] theorem State.afterTurn_regRead (s : State) (off : Nat) : s.afterTurn.regRead off = s.regRead off := rfl

/-- A scheduled Host access is the step. -/
theorem State.HostMoves.step_eq {s : State} {op : HostOp} {rest : List HostOp} {later : List Turn}
    (h : s.HostMoves op rest later) : step s = (s.dropTurn later).hostTurn := by
  unfold step State.nextTurn
  rw [h.schedule]
  rfl

/-- A scheduled Host write of an aligned word inside the block is a register write. -/
theorem State.HostMoves.step_write {s : State} {off : Nat} {v : Word} {rest : List HostOp} {later : List Turn}
    (h : s.HostMoves (.write .word off v) rest later) (hoff : off < 0x200) (h4 : off % 4 = 0) :
    step s = .next (((s.dropTurn later).regWrite off v).hostDone rest) := by
  rw [h.step_eq, State.hostTurn, State.dropTurn_program, h.program]
  simp only [State.dropTurn_resetDone, h.resetDone, Bool.not_true, Bool.false_eq_true, if_false,
    checkAccess_inside hoff h4]

/-- A scheduled Host read of an aligned word inside the block returns the register. -/
theorem State.HostMoves.step_read {s : State} {off : Nat} {rest : List HostOp} {later : List Turn}
    (h : s.HostMoves (.read .word off) rest later) (hoff : off < 0x200) (h4 : off % 4 = 0) :
    step s = .next (((s.dropTurn later).hostDone rest).keepRead (s.regRead off)) := by
  rw [h.step_eq, State.hostTurn, State.dropTurn_program, h.program]
  simp only [State.dropTurn_resetDone, h.resetDone, Bool.not_true, Bool.false_eq_true, if_false,
    checkAccess_inside hoff h4]
  rfl

/-- What a step can do: a Host turn, an Engine turn, hardware reset or power loss. -/
theorem step_cases {s t : State} (h : step s = .next t) :
    (s.mover = .host ∧ s.afterTurn.hostTurn = .next t) ∨ (s.mover = .engine ∧ s.afterTurn.engineTurn = .next t) ∨
    (s.mover = .hardReset ∧ t = s.afterTurn.hardReset) ∨ (s.mover = .powerLoss ∧ t = s.afterTurn.losePower) := by
  rw [step_eq] at h
  cases hm : s.mover with
  | host => exact .inl ⟨rfl, by rw [hm] at h; exact h⟩
  | engine => exact .inr (.inl ⟨rfl, by rw [hm] at h; exact h⟩)
  | hardReset =>
    rw [hm] at h
    exact .inr (.inr (.inl ⟨rfl, (Host.Outcome.next.inj h).symm⟩))
  | powerLoss =>
    rw [hm] at h
    exact .inr (.inr (.inr ⟨rfl, (Host.Outcome.next.inj h).symm⟩))

end Sys2Proof.Machine
end

