-- ==== Sys2Proof/Laws/Run.lean ====
section
/-! SUPPORT. Runs of many steps: one step, runs joined, and reachability carried along an invariant. -/

namespace Sys2Proof.Machine

/-- One step of a run, of any machine. -/
theorem coreRun_succ (M : Host.Core) {s t : M.State} (h : M.step s = .next t) (n : Nat) :
    M.run (n + 1) s = M.run n t := by
  simp only [Host.Core.run, h]

/-- A run that comes to a state began with a step, of any machine. -/
theorem coreRun_succ_inv (M : Host.Core) {s u : M.State} {n : Nat} (h : M.run (n + 1) s = .next u) :
    ∃ t, M.step s = .next t ∧ M.run n t = .next u := by
  simp only [Host.Core.run] at h
  split at h
  · rename_i t ht
    exact ⟨t, ht, h⟩
  · cases h
  · cases h

/-- A run of `n + 1` steps is one step and then a run of `n`. -/
theorem run_succ {s t : State} (h : step s = .next t) (n : Nat) :
    Host.Core.run Sys2Proof.core (n + 1) s = Host.Core.run Sys2Proof.core n t :=
  coreRun_succ Sys2Proof.core h n

/-- A run of no step stays. -/
theorem run_zero (s : State) : Host.Core.run Sys2Proof.core 0 s = .next s := rfl

/-- A run that comes to a state began with a step. -/
theorem run_succ_inv {s u : State} {n : Nat} (h : Host.Core.run Sys2Proof.core (n + 1) s = .next u) :
    ∃ t, step s = .next t ∧ Host.Core.run Sys2Proof.core n t = .next u :=
  coreRun_succ_inv Sys2Proof.core h

/-- Two runs joined. -/
theorem run_add {s t : State} {m : Nat} (h : Host.Core.run Sys2Proof.core m s = .next t) (n : Nat) :
    Host.Core.run Sys2Proof.core (m + n) s = Host.Core.run Sys2Proof.core n t := by
  induction m generalizing s with
  | zero =>
    rw [run_zero] at h
    cases h
    rw [Nat.zero_add]
  | succ m ih =>
    obtain ⟨u, hu, hm⟩ := run_succ_inv h
    rw [Nat.succ_add, run_succ hu]
    exact ih hm

/-- Every state reaches itself. -/
theorem Reaches.refl (s : State) : Reaches s s := ⟨0, rfl⟩

/-- One step, then the rest. -/
theorem Reaches.step {s t u : State} (h : step s = .next t) (r : Reaches t u) : Reaches s u := by
  obtain ⟨k, hk⟩ := r
  exact ⟨k + 1, by rw [run_succ h, hk]⟩

/-- Reachability is transitive. -/
theorem Reaches.trans {s t u : State} (h : Reaches s t) (r : Reaches t u) : Reaches s u := by
  obtain ⟨m, hm⟩ := h
  obtain ⟨n, hn⟩ := r
  exact ⟨m + n, by rw [run_add hm, hn]⟩

/-- What every step keeps holds in every state that is reached. -/
theorem Reaches.induct {P : State → Prop} (keep : ∀ s t, P s → Machine.step s = .next t → P t) {s u : State}
    (h : Reaches s u) (hs : P s) : P u := by
  obtain ⟨k, hk⟩ := h
  induction k generalizing s with
  | zero =>
    rw [run_zero] at hk
    cases hk
    exact hs
  | succ k ih =>
    obtain ⟨t, ht, hk⟩ := run_succ_inv hk
    exact ih (keep s t hs ht) hk

end Sys2Proof.Machine
end

