-- ==== Sys2Proof/Laws/HostLines.lean ====
section
/-! SUPPORT. What the Host's lines do on an idle device, in every order of Host and Engine turns: a register access, and
a command line, which ends in the state its command completes in. That a run comes to the end of the lines rests on log
entry 3: on an empty schedule the Engine moves while it can, else the Host. -/

namespace Sys2Proof.Machine

/-- Only Host and Engine turns. -/
def AgentTurns (q : List Turn) : Prop := ∀ t ∈ q, t = .host ∨ t = .engine

/-- A state with another schedule. -/
def State.withSchedule (s : State) (q : List Turn) : State := { s with schedule := q }

@[simp] theorem State.withSchedule_self (s : State) : s.withSchedule s.schedule = s := rfl

/-- An idle device leaves its next step to the Host, in whatever order the turns are scheduled. -/
theorem idle_reaches_host (q : List Turn) (hq : AgentTurns q) (s : State) (hb : s.busy = false)
    (hr : s.resetDone = true) :
    ∃ q', AgentTurns q' ∧ ∀ v, (s.withSchedule q').hostTurn = .next v → Reaches (s.withSchedule q) v := by
  induction q with
  | nil =>
    refine ⟨[], hq, fun v hv => Reaches.step ?_ (Reaches.refl v)⟩
    rw [step_eq]
    have hm : (s.withSchedule []).mover = .host := by
      simp only [State.mover, State.withSchedule, State.defaultTurn, hb, Bool.false_and, Bool.false_eq_true, if_false]
    rw [hm]
    exact hv
  | cons a q ih =>
    rcases hq a (by simp) with rfl | rfl
    · exact ⟨q, fun t ht => hq t (by simp [ht]), fun v hv => Reaches.step (by rw [step_eq]; exact hv) (Reaches.refl v)⟩
    · obtain ⟨q', hq', h⟩ := ih fun t ht => hq t (by simp [ht])
      refine ⟨q', hq', fun v hv => Reaches.step ?_ (h v hv)⟩
      rw [step_eq]
      have hm : (s.withSchedule (.engine :: q)).mover = .engine := rfl
      rw [hm, State.runTurn, State.engineTurn]
      simp only [State.afterTurn, State.dropTurn_resetDone, State.dropTurn_busy, State.withSchedule, hb, hr,
        Bool.not_true, Bool.false_eq_true, if_false]
      rfl

/-- The STATUS bit that WAIT polls is BUSY (30_encoding.md R81). -/
theorem State.statusWord_busy (s : State) : (s.regRead offStatus).getLsbD 0 = s.busy := by
  simp only [State.regRead, offStatus, offCmd, if_true, show ¬ ((0x004 : Nat) = 0x000) by decide, if_false,
    State.statusWord, flagBit]
  cases s.busy <;> cases s.valid <;> cases s.errIllegal <;> cases s.errBusy <;> cases s.errInvalid <;> decide

/-- An idle device finishes a WAIT at once. -/
theorem State.HostReady.wait {s : State} {rest : List HostOp} (h : s.HostReady [.wait] rest) :
    ∃ t, s.HostFinishes t rest s.cipher [] ∧ t.result = s.result := by
  obtain ⟨q, hq, hreach⟩ := idle_reaches_host s.schedule h.anyOrder s h.idle h.resetDone
  refine ⟨(s.withSchedule q).hostDone rest, ?_, rfl⟩
  have hp : (s.withSchedule q).program = .wait :: rest := h.program
  have hr : (s.withSchedule q).resetDone = true := h.resetDone
  have hb : (s.withSchedule q).busy = false := h.idle
  have hs : (s.withSchedule q).hostTurn = .next ((s.withSchedule q).hostDone rest) := by
    rw [State.hostTurn, hp]
    simp only [hr, State.statusWord_busy, hb, Bool.not_true, Bool.false_eq_true, if_false]
  exact
    { reached := State.withSchedule_self s ▸ hreach _ hs, resetDone := h.resetDone, idle := h.idle, live := h.live,
      anyOrder := hq, program := rfl, cipher := rfl, reads := by simp [State.withSchedule], arg := rfl, errIllegal := rfl,
      errBusy := rfl, errInvalid := rfl, build := rfl }

/-- An idle device answers a register read. -/
theorem State.HostReady.read {s : State} {off : Nat} {rest : List HostOp} (h : s.HostReady (lineRd off) rest)
    (hoff : off < 0x200) (h4 : off % 4 = 0) : ∃ t, s.HostFinishes t rest s.cipher [s.regRead off] := by
  obtain ⟨q, hq, hreach⟩ := idle_reaches_host s.schedule h.anyOrder s h.idle h.resetDone
  refine ⟨((s.withSchedule q).hostDone rest).keepRead (s.regRead off), ?_⟩
  have hp : (s.withSchedule q).program = .read .word off :: rest := h.program
  have hr : (s.withSchedule q).resetDone = true := h.resetDone
  have hs : (s.withSchedule q).hostTurn = .next (((s.withSchedule q).hostDone rest).keepRead (s.regRead off)) := by
    rw [State.hostTurn, hp]
    simp only [hr, Bool.not_true, Bool.false_eq_true, if_false, checkAccess_inside hoff h4]
    rfl
  exact
    { reached := State.withSchedule_self s ▸ hreach _ hs, resetDone := h.resetDone, idle := h.idle, live := h.live,
      anyOrder := hq, program := rfl, cipher := rfl, reads := rfl, arg := rfl, errIllegal := rfl, errBusy := rfl,
      errInvalid := rfl, build := rfl }

/-- What the command of a line leaves of the device besides E and RESULT: it is idle and live, and everything a Host
sequence relies on is as before. -/
structure State.LineFrame (s t : State) : Prop where
  busy : t.busy = false
  live : t.valid = true
  arg : t.arg = s.arg
  errIllegal : t.errIllegal = s.errIllegal
  errBusy : t.errBusy = s.errBusy
  errInvalid : t.errInvalid = s.errInvalid
  build : t.build = s.build
  resetDone : t.resetDone = s.resetDone
  program : t.program = s.program
  reads : t.reads = s.reads
  schedule : t.schedule = s.schedule

/-- The frame of a command on a live device is one. -/
theorem State.CommandFrame.line {s t : State} (h : s.CommandFrame t) (hv : s.valid = true) : s.LineFrame t :=
  ⟨h.busy, h.valid.trans hv, h.arg, h.errIllegal, h.errBusy, h.errInvalid, h.build, h.resetDone, h.program, h.reads,
    h.schedule⟩

/-- INIT has it on a wiped device too (43_protocol.md R180). -/
theorem execInit_line (s : State) :
    s.LineFrame { s.completeResult Cipher.reset 0 with valid := true } := by
  constructor <;> rfl

/-- A device whose running command completes with the Cipher State `c` and the RESULT `r` finishes the WAIT after it. -/
theorem busy_wait_finishes (q : List Turn) (hq : AgentTurns q) {s : State} {i : Instr} {rest : List HostOp} {c : Cipher}
    {r : Word} (hb : s.busy = true) (hr : s.resetDone = true) (hf : s.fetch = some i)
    (hp : s.program = .wait :: rest)
    (hx : ∀ p, ∃ t, exec i (s.withSchedule p) = .next t ∧ (s.withSchedule p).LineFrame t ∧ t.cipher = c ∧ t.result = r) :
    ∃ t, (s.withSchedule q).HostFinishes t rest c [] ∧ t.result = r := by
  induction q with
  | nil =>
    obtain ⟨u, hu, hfr, hc, hres⟩ := hx []
    have hready : u.HostReady [.wait] rest :=
      ⟨⟨hfr.resetDone.trans hr, hfr.busy, by rw [State.Interleaving, hfr.schedule]; exact hq, hfr.program.trans hp⟩,
        hfr.live⟩
    obtain ⟨t, ht, hr'⟩ := hready.wait
    refine ⟨t, ?_, hr'.trans hres⟩
    have hstep : step (s.withSchedule []) = .next u := by
      rw [step_eq]
      have hm : (s.withSchedule []).mover = .engine := by
        simp only [State.mover, State.withSchedule, State.defaultTurn, hb, hr, Bool.and_self, if_true]
      have ha : (s.withSchedule []).afterTurn = s.withSchedule [] := rfl
      have hf' : (s.withSchedule []).fetch = some i := hf
      have hb' : (s.withSchedule []).busy = true := hb
      have hr' : (s.withSchedule []).resetDone = true := hr
      rw [hm, ha, State.runTurn, State.engineTurn, hf', hb', hr']
      exact hu
    exact
      { reached := .step hstep ht.reached, resetDone := ht.resetDone, idle := ht.idle, live := ht.live,
        anyOrder := ht.anyOrder, program := ht.program, cipher := ht.cipher.trans hc,
        reads := ht.reads.trans (by rw [hfr.reads]), arg := ht.arg.trans hfr.arg,
        errIllegal := ht.errIllegal.trans hfr.errIllegal, errBusy := ht.errBusy.trans hfr.errBusy,
        errInvalid := ht.errInvalid.trans hfr.errInvalid, build := ht.build.trans hfr.build }
  | cons a q ih =>
    have hq' : AgentTurns q := fun t ht => hq t (by simp [ht])
    rcases hq a (by simp) with rfl | rfl
    · obtain ⟨t, ht, hr'⟩ := ih hq'
      refine ⟨t, { ht with reached := .step ?_ ht.reached }, hr'⟩
      rw [step_eq]
      have hm : (s.withSchedule (.host :: q)).mover = .host := rfl
      have ha : (s.withSchedule (.host :: q)).afterTurn = s.withSchedule q := rfl
      have hp' : (s.withSchedule q).program = .wait :: rest := hp
      have hb' : (s.withSchedule q).busy = true := hb
      have hr' : (s.withSchedule q).resetDone = true := hr
      rw [hm, ha, State.runTurn, State.hostTurn, hp']
      simp only [hr', State.statusWord_busy, hb', Bool.not_true, Bool.false_eq_true, if_false, if_true]
    · obtain ⟨u, hu, hfr, hc, hres⟩ := hx q
      have hready : u.HostReady [.wait] rest :=
        ⟨⟨hfr.resetDone.trans hr, hfr.busy, by rw [State.Interleaving, hfr.schedule]; exact hq', hfr.program.trans hp⟩,
          hfr.live⟩
      obtain ⟨t, ht, hr'⟩ := hready.wait
      refine ⟨t, ?_, hr'.trans hres⟩
      have hstep : step (s.withSchedule (.engine :: q)) = .next u := by
        rw [step_eq]
        have hm : (s.withSchedule (.engine :: q)).mover = .engine := rfl
        have ha : (s.withSchedule (.engine :: q)).afterTurn = s.withSchedule q := rfl
        have hf' : (s.withSchedule q).fetch = some i := hf
        have hb' : (s.withSchedule q).busy = true := hb
        have hr' : (s.withSchedule q).resetDone = true := hr
        rw [hm, ha, State.runTurn, State.engineTurn, hf', hb', hr']
        exact hu
      exact
        { reached := .step hstep ht.reached, resetDone := ht.resetDone, idle := ht.idle, live := ht.live,
          anyOrder := ht.anyOrder, program := ht.program, cipher := ht.cipher.trans hc,
          reads := ht.reads.trans (by rw [hfr.reads]; rfl), arg := ht.arg.trans hfr.arg,
          errIllegal := ht.errIllegal.trans hfr.errIllegal, errBusy := ht.errBusy.trans hfr.errBusy,
          errInvalid := ht.errInvalid.trans hfr.errInvalid, build := ht.build.trans hfr.build }

/-- A command line on an idle device that accepts the command ends in the state the command completes in
(30_encoding.md R80). -/
theorem State.HostIdle.command {s : State} {i : Instr} {rest : List HostOp} {c : Cipher} {r : Word}
    (h : s.HostIdle (lineCmd i) rest) (hd : decode s.build.primitives (encode i) = .cmd i)
    (hl : s.valid = true ∨ legalWhileWiped i = true)
    (hx : ∀ u : State, u.cipher = s.cipher → u.result = s.result → u.valid = s.valid →
      ∃ t, exec i u = .next t ∧ u.LineFrame t ∧ t.cipher = c ∧ t.result = r) :
    ∃ t, s.HostFinishes t rest c [] ∧ t.result = r := by
  obtain ⟨q, hq, hreach⟩ := idle_reaches_host s.schedule h.anyOrder s h.idle h.resetDone
  have hp : (s.withSchedule q).program = .write .word offCmd (encode i) :: .wait :: rest := h.program
  have hr : (s.withSchedule q).resetDone = true := h.resetDone
  have hb : (s.withSchedule q).busy = false := h.idle
  have hv : (s.withSchedule q).valid = true ∨ legalWhileWiped i = true := hl
  have hd' : decode (s.withSchedule q).build.primitives (encode i) = .cmd i := hd
  have hacc : (s.withSchedule q).regWrite offCmd (encode i) = (s.withSchedule q).latchCommand (encode i) := by
    rcases State.regWrite_cases (s.withSchedule q) offCmd (encode i) with ⟨-, e⟩ | ⟨h4, -⟩ | ⟨h8, -⟩ | ⟨h8, -⟩ | ⟨h0, -⟩
    · rw [e]
      rcases State.accept_cases (s.withSchedule q) (encode i) with ⟨hb', -⟩ | ⟨-, ⟨w, hw⟩, -⟩ |
        ⟨-, j, hj, ⟨hv', hl', -⟩ | ⟨-, e'⟩⟩
      · rw [hb] at hb'
        cases hb'
      · rw [hd'] at hw
        cases hw
      · rw [hd'] at hj
        cases hj
        rw [hv', hl'] at hv
        rcases hv with hv | hv <;> cases hv
      · exact e'
    · exact absurd h4 (by decide)
    · exact absurd h8 (by decide)
    · exact absurd h8 (by decide)
    · exact absurd rfl h0
  have hs : (s.withSchedule q).hostTurn =
      .next (((s.withSchedule q).latchCommand (encode i)).hostDone (.wait :: rest)) := by
    rw [State.hostTurn, hp]
    simp only [hr, Bool.not_true, Bool.false_eq_true, if_false,
      checkAccess_inside (show offCmd < 0x200 by decide) (show offCmd % 4 = 0 by decide), hacc]
  have hf : (((s.withSchedule q).latchCommand (encode i)).hostDone (.wait :: rest)).fetch = some i := by
    simp only [State.fetch, State.hostDone_latch, State.latchCommand_latch, State.hostDone_build,
      State.latchCommand_build, hd', Decoded.instr?]
  obtain ⟨t, ht, hres⟩ := busy_wait_finishes q hq (s := ((s.withSchedule q).latchCommand (encode i)).hostDone (.wait :: rest))
    (i := i) (rest := rest) (c := c) (r := r) rfl h.resetDone hf rfl fun p => hx _ rfl rfl rfl
  exact ⟨t, { ht with reached := (State.withSchedule_self s ▸ hreach _ hs).trans ht.reached }, hres⟩

/-- The same on a live device, for a command with the common frame. -/
theorem State.HostReady.command {s : State} {i : Instr} {rest : List HostOp} {c : Cipher} {r : Word}
    (h : s.HostReady (lineCmd i) rest) (hd : decode s.build.primitives (encode i) = .cmd i)
    (hx : ∀ u : State, u.cipher = s.cipher → u.result = s.result → u.valid = true →
      ∃ t, exec i u = .next t ∧ u.CommandFrame t ∧ t.cipher = c ∧ t.result = r) :
    ∃ t, s.HostFinishes t rest c [] ∧ t.result = r :=
  h.toHostIdle.command hd (.inl h.live) fun u hc hr hv => by
    obtain ⟨t, ht, hf, hrest⟩ := hx u hc hr (hv.trans h.live)
    exact ⟨t, ht, hf.line (hv.trans h.live), hrest⟩

/-- Where lines are done, the next ones can begin. -/
theorem State.HostFinishes.ready {s t : State} {lines rest : List HostOp} {c : Cipher} {out : List Word}
    (h : s.HostFinishes t (lines ++ rest) c out) : t.HostReady lines rest :=
  ⟨⟨h.resetDone, h.idle, h.anyOrder, h.program⟩, h.live⟩

/-- Lines after lines: the Cipher State of the last, and what was read in order. -/
theorem State.HostFinishes.trans {s t u : State} {rest rest' : List HostOp} {c d : Cipher} {out out' : List Word}
    (h : s.HostFinishes t rest c out) (h' : t.HostFinishes u rest' d out') :
    s.HostFinishes u rest' d (out ++ out') where
  reached := h.reached.trans h'.reached
  resetDone := h'.resetDone
  idle := h'.idle
  live := h'.live
  anyOrder := h'.anyOrder
  program := h'.program
  cipher := h'.cipher
  reads := by rw [h'.reads, h.reads, List.append_assoc]
  arg := h'.arg.trans h.arg
  errIllegal := h'.errIllegal.trans h.errIllegal
  errBusy := h'.errBusy.trans h.errBusy
  errInvalid := h'.errInvalid.trans h.errInvalid
  build := h'.build.trans h.build

end Sys2Proof.Machine
end

