-- ==== Sys2Proof/Laws/Operands.lean ====
section
/-! SUPPORT. The laws of the packings and of the STATUS word: which byte or flag stands where (20_memory.md R52,
10_state.md R34). -/

namespace Sys2Proof.Machine

/-- Zero extension keeps the number (00_scope.md R11). -/
theorem zext32_toNat (b : Byte) : (zext32 b).toNat = b.toNat := by
  have := b.isLt
  simp only [zext32, BitVec.truncate_eq_setWidth, BitVec.toNat_setWidth]
  omega

/-- A packed word is its bytes, the first lowest (R52). -/
theorem packLE_eq_append (b0 b1 b2 b3 : Byte) : packLE b0 b1 b2 b3 = b3 ++ b2 ++ b1 ++ b0 := by
  apply BitVec.eq_of_getLsbD_eq
  intro n hn
  simp only [packLE, zext32, BitVec.getLsbD_or, BitVec.getLsbD_shiftLeft, BitVec.getLsbD_setWidth,
    BitVec.getLsbD_append, BitVec.zeroExtend_eq_setWidth]
  by_cases h1 : n < 8
  · simp [h1, show n < 16 by omega, show n < 24 by omega, hn]
  · have ha : b0.getLsbD n = false := BitVec.getLsbD_of_ge _ _ (by omega)
    by_cases h2 : n < 16
    · simp [h1, h2, show n < 24 by omega, hn, show n - 8 < 8 by omega, ha, show n - 8 < 32 by omega]
    · have hb : b1.getLsbD (n - 8) = false := BitVec.getLsbD_of_ge _ _ (by omega)
      by_cases h3 : n < 24
      · simp [h1, h2, h3, hn, ha, hb, show n - 16 < 32 by omega, show n - 8 - 8 = n - 16 by omega,
          show ¬ (n - 8 < 8) by omega, show n - 16 < 8 by omega]
      · have hc : b2.getLsbD (n - 16) = false := BitVec.getLsbD_of_ge _ _ (by omega)
        simp [h1, h2, h3, hn, ha, hb, hc, show n - 24 < 32 by omega, show n - 8 - 8 - 8 = n - 24 by omega,
          show ¬ (n - 8 < 8) by omega, show ¬ (n - 8 - 8 < 8) by omega]

/-- A packed word as a number (R52). -/
theorem packLE_toNat (b0 b1 b2 b3 : Byte) :
    (packLE b0 b1 b2 b3).toNat = b0.toNat + 256 * b1.toNat + 65536 * b2.toNat + 16777216 * b3.toNat := by
  have := b0.isLt
  have := b1.isLt
  have := b2.isLt
  have := b3.isLt
  rw [packLE_eq_append]
  simp only [BitVec.toNat_append]
  rw [← Nat.shiftLeft_add_eq_or_of_lt (by omega), ← Nat.shiftLeft_add_eq_or_of_lt (by omega),
    ← Nat.shiftLeft_add_eq_or_of_lt (by omega)]
  simp only [Nat.shiftLeft_eq]
  omega

/-- Which bit a flag of STATUS stands at (10_state.md R34). -/
theorem flagBit_getLsbD (b : Bool) {k : Nat} (hk : k < 32) (n : Nat) :
    (flagBit b k).getLsbD n = (b && decide (n = k)) := by
  unfold flagBit
  cases b
  · simp
  · simp only [if_true, Bool.true_and]
    rw [BitVec.getLsbD_shiftLeft]
    by_cases h : n = k
    · subst h
      simp [hk]
    · by_cases h2 : n < k
      · simp [h, h2]
      · simp only [h, decide_false, Bool.and_eq_false_imp]
        intro _
        rw [show (1 : Word).getLsbD (n - k) = decide (n - k = 0) by simp]
        exact decide_eq_false (by omega)

/-- A write at an offset above ARG changes nothing (10_state.md R36 to R41). -/
theorem State.regWrite_ignored (s : State) {off : Nat} (h : 0x008 < off) (v : Word) : s.regWrite off v = s := by
  unfold State.regWrite offCmd offStatus offArg
  rw [if_neg (by omega), if_neg (by omega), if_neg (by omega)]

end Sys2Proof.Machine
end

