-- ==== Sys2Proof/Laws/PerInstr.lean ====
section
/-! SUPPORT. Facts about every command as syntax, one lemma per constructor: the fields of its word (30_encoding.md R70,
R74). -/

namespace Sys2Proof

/-- The opcode field of `(imm << 8) | op`. -/
theorem opField_word (imm op : Byte) : opField ((imm.zeroExtend 32 <<< 8) ||| op.zeroExtend 32) = op := by
  apply BitVec.eq_of_getLsbD_eq
  intro n hn
  simp [opField, hn, show n < 32 by omega]

/-- The immediate field of `(imm << 8) | op`. -/
theorem immField_word (imm op : Byte) : immField ((imm.zeroExtend 32 <<< 8) ||| op.zeroExtend 32) = imm := by
  apply BitVec.eq_of_getLsbD_eq
  intro n hn
  simp [immField, hn, show 8 + n < 32 by omega]

/-- The reserved field of `(imm << 8) | op`. -/
theorem rsvField_word (imm op : Byte) : rsvField ((imm.zeroExtend 32 <<< 8) ||| op.zeroExtend 32) = 0 := by
  apply BitVec.eq_of_getLsbD_eq
  intro n hn
  have h1 : imm.getLsbD (16 + n - 8) = false := BitVec.getLsbD_of_ge _ _ (by omega)
  have h2 : op.getLsbD (16 + n) = false := BitVec.getLsbD_of_ge _ _ (by omega)
  simp [rsvField, hn, h1, h2]

namespace Laws.WordFields

/-- The word of a command holds its opcode in bits 7:0, its immediate in bits 15:8 and 0 above; and its opcode is a
primitive one exactly when the command is a primitive. -/
def Statement (i : Instr) : Prop :=
  opField (encode i) = i.opcode ∧ immField (encode i) = i.immediate ∧ rsvField (encode i) = 0 ∧
    isPrimitiveOp i.opcode = i.isPrimitive

/-- The fields follow from the word formula; the primitive opcodes are checked command by command. -/
theorem of_primitive {i : Instr} (h : isPrimitiveOp i.opcode = i.isPrimitive) : Statement i :=
  ⟨opField_word _ _, immField_word _ _, rsvField_word _ _, h⟩

theorem nop : Statement .nop := of_primitive rfl
theorem init : Statement .init := of_primitive rfl
theorem absorb (b : Byte) : Statement (.absorb b) := of_primitive rfl
theorem absorbStop : Statement .absorbStop := of_primitive rfl
theorem flush : Statement .flush := of_primitive rfl
theorem final (len : Byte) : Statement (.final len) := of_primitive rfl
theorem drip : Statement .drip := of_primitive rfl
theorem random32 : Statement .random32 := of_primitive rfl
theorem crypt (b : Byte) : Statement (.crypt b) := of_primitive rfl
theorem uniform : Statement .uniform := of_primitive rfl
theorem wipe : Statement .wipe := of_primitive rfl
theorem update : Statement .update := of_primitive rfl
theorem whip : Statement .whip := of_primitive rfl
theorem crush : Statement .crush := of_primitive rfl
theorem shuffle : Statement .shuffle := of_primitive rfl
theorem absorbNibble (n : Nibble) : Statement (.absorbNibble n) := of_primitive rfl
theorem output : Statement .output := of_primitive rfl

end Laws.WordFields

end Sys2Proof
end

