-- ==== Sys2Proof/Tests/Slice0.lean ====
section
/-! SUPPORT. Tests of this model, and for every obligation with hypotheses a witness that meets them.

The expected values of the tests come from the spec: the word formulas of 30_encoding.md R74 and the vectors of
95_test_vectors.md, named in each docstring. -/

namespace Sys2Proof.Tests

open Sys2Proof Sys2Proof.Machine

/-! ### Well-formedness -/

/-- R75: refused on a build without primitives, well formed on one with them. -/
theorem test_wellFormed_update :
    Instr.wellFormed false .update = false ∧ Instr.wellFormed true .update = true := by decide

/-- R75: refused on a build without primitives, well formed on one with them. -/
theorem test_wellFormed_whip :
    Instr.wellFormed false .whip = false ∧ Instr.wellFormed true .whip = true := by decide

/-- R75: refused on a build without primitives, well formed on one with them. -/
theorem test_wellFormed_crush :
    Instr.wellFormed false .crush = false ∧ Instr.wellFormed true .crush = true := by decide

/-- R75: refused on a build without primitives, well formed on one with them. -/
theorem test_wellFormed_shuffle :
    Instr.wellFormed false .shuffle = false ∧ Instr.wellFormed true .shuffle = true := by decide

/-- R75: refused on a build without primitives, well formed on one with them. -/
theorem test_wellFormed_absorbNibble :
    Instr.wellFormed false (.absorbNibble 5) = false ∧ Instr.wellFormed true (.absorbNibble 5) = true := by decide

/-- R75: refused on a build without primitives, well formed on one with them. -/
theorem test_wellFormed_output :
    Instr.wellFormed false .output = false ∧ Instr.wellFormed true .output = true := by decide

/-- The other commands are well formed on every build. -/
theorem test_wellFormed_others : ∀ p : Bool, ([.nop, .init, .absorb 0, .absorbStop, .flush, .final 0, .drip, .random32,
    .crypt 0, .uniform, .wipe] : List Instr).all (Instr.wellFormed p) = true := by decide

/-! ### Decoding: words written out from 30_encoding.md R70 to R78 -/

/-- 0x00000000: RSV 0, IMM 0x00, OP 0x00 (R74). -/
theorem test_decode_nop : decode true 0b00000000000000000000000000000000 = .cmd .nop ∧ encode .nop = 0b00000000000000000000000000000000 ∧ decodeTableWord 32 0x00000000 = some .nop := by decide

/-- 0x00000001: RSV 0, IMM 0x00, OP 0x01 (R74). -/
theorem test_decode_init : decode true 0b00000000000000000000000000000001 = .cmd .init ∧ encode .init = 0b00000000000000000000000000000001 ∧ decodeTableWord 32 0x00000001 = some .init := by decide

/-- 0x00004102: RSV 0, IMM 0x41, OP 0x02 (R74). -/
theorem test_decode_absorb : decode true 0b00000000000000000100000100000010 = .cmd (.absorb 0x41) ∧ encode (.absorb 0x41) = 0b00000000000000000100000100000010 ∧ decodeTableWord 32 0x00004102 = some (.absorb 0x41) := by decide

/-- 0x00000003: RSV 0, IMM 0x00, OP 0x03 (R74). -/
theorem test_decode_absorbStop : decode true 0b00000000000000000000000000000011 = .cmd .absorbStop ∧ encode .absorbStop = 0b00000000000000000000000000000011 ∧ decodeTableWord 32 0x00000003 = some .absorbStop := by decide

/-- 0x00000004: RSV 0, IMM 0x00, OP 0x04 (R74). -/
theorem test_decode_flush : decode true 0b00000000000000000000000000000100 = .cmd .flush ∧ encode .flush = 0b00000000000000000000000000000100 ∧ decodeTableWord 32 0x00000004 = some .flush := by decide

/-- 0x00002005: RSV 0, IMM 0x20, OP 0x05 (R74). -/
theorem test_decode_final : decode true 0b00000000000000000010000000000101 = .cmd (.final 0x20) ∧ encode (.final 0x20) = 0b00000000000000000010000000000101 ∧ decodeTableWord 32 0x00002005 = some (.final 0x20) := by decide

/-- 0x00000006: RSV 0, IMM 0x00, OP 0x06 (R74). -/
theorem test_decode_drip : decode true 0b00000000000000000000000000000110 = .cmd .drip ∧ encode .drip = 0b00000000000000000000000000000110 ∧ decodeTableWord 32 0x00000006 = some .drip := by decide

/-- 0x00000007: RSV 0, IMM 0x00, OP 0x07 (R74). -/
theorem test_decode_random32 : decode true 0b00000000000000000000000000000111 = .cmd .random32 ∧ encode .random32 = 0b00000000000000000000000000000111 ∧ decodeTableWord 32 0x00000007 = some .random32 := by decide

/-- 0x00004808: RSV 0, IMM 0x48, OP 0x08 (R74). -/
theorem test_decode_crypt : decode true 0b00000000000000000100100000001000 = .cmd (.crypt 0x48) ∧ encode (.crypt 0x48) = 0b00000000000000000100100000001000 ∧ decodeTableWord 32 0x00004808 = some (.crypt 0x48) := by decide

/-- 0x00000009: RSV 0, IMM 0x00, OP 0x09 (R74). -/
theorem test_decode_uniform : decode true 0b00000000000000000000000000001001 = .cmd .uniform ∧ encode .uniform = 0b00000000000000000000000000001001 ∧ decodeTableWord 32 0x00000009 = some .uniform := by decide

/-- 0x0000000F: RSV 0, IMM 0x00, OP 0x0f (R74). -/
theorem test_decode_wipe : decode true 0b00000000000000000000000000001111 = .cmd .wipe ∧ encode .wipe = 0b00000000000000000000000000001111 ∧ decodeTableWord 32 0x0000000F = some .wipe := by decide

/-- 0x00000010: RSV 0, IMM 0x00, OP 0x10 (R74). -/
theorem test_decode_update : decode true 0b00000000000000000000000000010000 = .cmd .update ∧ encode .update = 0b00000000000000000000000000010000 ∧ decodeTableWord 32 0x00000010 = some .update := by decide

/-- 0x00000011: RSV 0, IMM 0x00, OP 0x11 (R74). -/
theorem test_decode_whip : decode true 0b00000000000000000000000000010001 = .cmd .whip ∧ encode .whip = 0b00000000000000000000000000010001 ∧ decodeTableWord 32 0x00000011 = some .whip := by decide

/-- 0x00000012: RSV 0, IMM 0x00, OP 0x12 (R74). -/
theorem test_decode_crush : decode true 0b00000000000000000000000000010010 = .cmd .crush ∧ encode .crush = 0b00000000000000000000000000010010 ∧ decodeTableWord 32 0x00000012 = some .crush := by decide

/-- 0x00000013: RSV 0, IMM 0x00, OP 0x13 (R74). -/
theorem test_decode_shuffle : decode true 0b00000000000000000000000000010011 = .cmd .shuffle ∧ encode .shuffle = 0b00000000000000000000000000010011 ∧ decodeTableWord 32 0x00000013 = some .shuffle := by decide

/-- 0x00000514: RSV 0, IMM 0x05, OP 0x14 (R74). -/
theorem test_decode_absorbNibble : decode true 0b00000000000000000000010100010100 = .cmd (.absorbNibble 5) ∧ encode (.absorbNibble 5) = 0b00000000000000000000010100010100 ∧ decodeTableWord 32 0x00000514 = some (.absorbNibble 5) := by decide

/-- 0x00000015: RSV 0, IMM 0x00, OP 0x15 (R74). -/
theorem test_decode_output : decode true 0b00000000000000000000000000010101 = .cmd .output ∧ encode .output = 0b00000000000000000000000000010101 ∧ decodeTableWord 32 0x00000015 = some .output := by decide

/-- R76: the reserved opcodes, whatever the other fields. -/
theorem test_decode_reserved : ([0x0A, 0x0B, 0x0C, 0x0D, 0x0E, 0x16, 0x80, 0xFF, 0x0000410A] : List Word).all
    (fun x => decode true x = .illegal .reservedOpcode) = true := by decide

/-- R75: the primitive opcodes on a build without primitives. -/
theorem test_decode_primitiveAbsent : ([0x10, 0x11, 0x12, 0x13, 0x0514, 0x15] : List Word).all
    (fun x => decode false x = .illegal .primitiveAbsent) = true := by decide

/-- R71: RSV not 0, IMM not 0 in form Z, a nibble of 0x10 or more in form N; form B takes every IMM. -/
theorem test_decode_fields : decode true 0x00010000 = .illegal .reservedBits ∧ decode true 0x80004102 = .illegal .reservedBits ∧
    decode true 0x00000100 = .illegal .immediateInFormZ ∧ decode true 0x00001014 = .illegal .nibbleTooWide ∧
    decode true 0x0000FF02 = .cmd (.absorb 0xFF) ∧ decode true 0x00000F14 = .cmd (.absorbNibble 15) := by decide

/-- A word of more than 32 bits spells no command (R70). -/
theorem test_decodeTableWord_wide : decodeTableWord 32 0x100000000 = none ∧ decodeTableWord 40 0 = none := by decide

/-! ### The commands, one step each -/

/-- The next state, if there is one. -/
def nextOf (o : Host.Outcome State Fault Refusal) : Option State :=
  match o with
  | .next t => some t
  | .fault _ => none
  | .refused _ => none

/-- The Cipher State after a command, if it completes. -/
def cipherAfter (i : Instr) (s : State) : Option Cipher := (nextOf (exec i s)).map State.cipher

/-- RESULT after a command, if it completes. -/
def resultAfter (i : Instr) (s : State) : Option Word := (nextOf (exec i s)).map State.result

/-- The reset state with another Cipher State. -/
def withCipher (c : Cipher) : State := { State.reset with cipher := c }

/-- The reset state with a UNIFORM latched on a bound. -/
def withBound (c : Cipher) (bound : Word) : State :=
  { State.reset with cipher := c, busy := true, latch := some ⟨0x00000009, bound⟩ }

/-- The reset state with a Host that has something to do, and the order of the turns. -/
def withHost (ops : List HostOp) (turns : List Turn) : State := { State.reset with program := ops, schedule := turns }

/-- V-NOP: NOP after reset leaves every item as it was (R210). -/
theorem test_nop : nextOf (exec .nop State.reset) = some State.reset := by decide

/-- INIT of a wiped device gives the reset Cipher State, RESULT 0 and VALID 1, and keeps ARG (R180). -/
theorem test_init : nextOf (exec .init { State.reset with cipher := Cipher.wiped, valid := false, result := 7, arg := 9 }) =
    some { State.reset with arg := 9 } := by decide

/-- V-UP-1: i = 1, j = 1, k = 2, T the identity. -/
theorem test_update_first : cipherAfter .update State.reset =
    some { Cipher.resetValue with i := 0x01, j := 0x01, k := 0x02 } := by decide

/-- V-UP-2: i = 2, j = 5, k = 9 and slots 2 and 5 exchanged. -/
theorem test_update_second : cipherAfter .update (withCipher { Cipher.resetValue with i := 0x01, j := 0x01, k := 0x02 }) =
    some { Cipher.resetValue with i := 0x02, j := 0x05, k := 0x09, table := [(2, 0x05), (5, 0x02)] } := by decide

/-- V-CR-3: of V-WH-1's table, the pair T[0] = d6, T[255] = 3a swaps and the pair T[1] = 0d, T[254] = 4e stays. -/
theorem test_crushPairs :
    Cipher.crushPairs 2 { Cipher.resetValue with table := [(0, 0xd6), (1, 0x0d), (254, 0x4e), (255, 0x3a)] } =
      { Cipher.resetValue with table := [(0, 0x3a), (1, 0x0d), (254, 0x4e), (255, 0xd6)] } := by decide

/-- V-CR-1: the first pairs of the identity stay, the middle pair too. -/
theorem test_crushPairs_reset : Cipher.crushPairs 3 Cipher.resetValue = Cipher.resetValue ∧
    Cipher.resetValue.crushPair 127 = Cipher.resetValue := by decide

/-- V-AB-1: T[0] = 85, T[0x85] = 00, a = 1. -/
theorem test_absorbNibble : cipherAfter (.absorbNibble 5) State.reset =
    some { Cipher.resetValue with a := 1, table := [(0, 0x85), (0x85, 0x00)] } := by decide

/-- V-AB-1b: the greatest nibble. -/
theorem test_absorbNibble_max : cipherAfter (.absorbNibble 15) State.reset =
    some { Cipher.resetValue with a := 1, table := [(0, 0x8f), (0x8f, 0x00)] } := by decide

/-- V-AB-2: low nibble first. -/
theorem test_absorb : cipherAfter (.absorb 0x41) State.reset =
    some { Cipher.resetValue with a := 2, table := [(0, 0x81), (1, 0x84), (0x81, 0x00), (0x84, 0x01)] } := by decide

/-- V-AB-4c: both nibbles swap with slot 128. -/
theorem test_absorb_zero : cipherAfter (.absorb 0x00) State.reset =
    some { Cipher.resetValue with a := 2, table := [(0, 0x80), (1, 0x00), (0x80, 0x01)] } := by decide

/-- V-AB-3: a = 1, T the identity. -/
theorem test_absorbStop : cipherAfter .absorbStop State.reset = some { Cipher.resetValue with a := 1 } := by decide

/-- V-FL-1: FLUSH from reset changes nothing. -/
theorem test_flush : nextOf (exec .flush State.reset) = some State.reset := by decide

/-- FINAL 32 on a counter of 6 (V-FI-1 without its message): the stop takes a to 7, nibble 0 swaps slots 7 and 0x80,
nibble 2 slots 8 and 0x82, and a ends at 9. -/
theorem test_final : cipherAfter (.final 32) (withCipher { Cipher.resetValue with a := 6 }) =
    some { Cipher.resetValue with a := 9, table := [(7, 0x80), (8, 0x82), (0x80, 0x07), (0x82, 0x08)] } := by decide

/-- V-OU-1: RESULT 0, the state unchanged. -/
theorem test_output : nextOf (exec .output State.reset) = some State.reset := by decide

/-- V-DR-1: RESULT 4, i = 1, j = 1, k = 2, z = 4. -/
theorem test_drip : nextOf (exec .drip State.reset) =
    some { State.reset with cipher := { Cipher.resetValue with i := 1, j := 1, k := 2, z := 4 }, result := 4 } := by
  decide

/-- The DRIP byte of V-DR-1 xored with 0x41 (R184). -/
theorem test_crypt : resultAfter (.crypt 0x41) State.reset = some 0x45 := by decide

/-- V-R32-1: the drips 04 14 45 ce, the first least significant. -/
theorem test_random32 : Cipher.resetValue.random32Value = 0xCE451404 := by decide +kernel

/-- L1-4: the rejection threshold. -/
theorem test_uniformMin : [2, 3, 6, 10, 256, 0x80000000, 0x80000001, 0xFFFFFFFF].map uniformMin =
    [0, 1, 4, 6, 0, 0, 0x7FFFFFFF, 1] := by decide

/-- L1-3: a bound below 2 gives 0 and draws nothing. -/
theorem test_uniform_small : resultAfter .uniform { withBound Cipher.resetValue 1 with result := 7 } = some 0 ∧
    cipherAfter .uniform (withBound Cipher.resetValue 0) = some Cipher.resetValue := by decide

/-- R17, R172: Uniform as a function on Cipher States. A bound of 1 draws nothing; with the bound 10 the draw of V-R32-1
ends the loop, and its value is 3460633604 mod 10. -/
theorem test_uniform_value : Cipher.resetValue.uniform 1 0 = some (Cipher.resetValue, 0) ∧
    (Cipher.resetValue.uniform 10 1).map Prod.snd = some 4 := by
  refine ⟨rfl, ?_⟩
  have h : (Cipher.resetValue.uniformPass 10).2 = some 4 := by
    rw [Cipher.uniformPass, Cipher.random32_snd, test_random32]
    decide
  rw [Cipher.uniform, if_neg (by decide), Cipher.uniformLoop, h]
  rfl

/-- The draw 0xCE451404 of V-R32-1 modulo 10: 3460633604 mod 10. -/
theorem test_uniform : uniformAccepts 10 0xCE451404 = true ∧ (0xCE451404 : Word) % 10 = 4 := by decide

/-- R211: cursors, RESULT and ARG 0, VALID 0, and the table's first, second and last slot 0. -/
theorem test_wipe : (nextOf (exec .wipe { State.reset with result := 7, arg := 9, errBusy := true })).map
      (fun t => (t.result, t.arg, t.valid, t.errBusy, t.cipher.cur0, t.cipher.cur1)) = some (0, 0, false, true, 0, 0) ∧
    Cipher.wiped.t 0 = 0 ∧ Cipher.wiped.t 1 = 0 ∧ Cipher.wiped.t 255 = 0 := by decide +kernel

/-! ### Host accesses -/

/-- V-IN-1: the registers after reset. -/
theorem test_registers : State.reset.regRead 0x004 = 0x00000002 ∧ State.reset.regRead 0x010 = 0x00000000 ∧
    State.reset.regRead 0x014 = 0x00000100 ∧ State.reset.regRead 0x018 = 0x00000003 ∧
    State.reset.regRead 0x100 = 0x03020100 ∧ State.reset.regRead 0x1FC = 0xFFFEFDFC := by decide

/-- R35: an idle ARG write. -/
theorem test_arg : nextOf (step (withHost [.write .word 0x008 6] [])) = some { State.reset with arg := 6 } := by decide

/-- V-ER-3: a nibble of 0x10 raises E_ILLEGAL: STATUS 0x00000102. -/
theorem test_illegal : (State.reset.accept 0x00001014).regRead 0x004 = 0x00000102 := by decide

/-- P5: a DRIP on a wiped device raises E_INVALID: STATUS 0x00000400; the word 0x000000FF raises E_ILLEGAL. -/
theorem test_invalid :
    (State.accept { State.reset with cipher := Cipher.wiped, valid := false } 0x00000006).regRead 0x004 = 0x00000400 ∧
    (State.accept { State.reset with cipher := Cipher.wiped, valid := false } 0x000000FF).regRead 0x004 = 0x00000100 := by
  decide

/-- P6: an accepted word sets BUSY, and a word written then raises E_BUSY and changes nothing else. -/
theorem test_busy : (State.reset.accept 0x00000013).regRead 0x004 = 0x00000003 ∧
    (State.reset.accept 0x00000013).accept 0x00000006 = { State.reset.accept 0x00000013 with errBusy := true } := by decide

/-- R34: a STATUS write clears the flags whose bits are 1. -/
theorem test_clear : (State.clearErrors { State.reset with errIllegal := true, errInvalid := true } 0x00000400).regRead
    0x004 = 0x00000102 := by decide

/-- 30_encoding.md R80: a command line is the CMD write and then WAIT; run to its end it leaves V-DR-1. -/
theorem test_line : nextOf (Host.Core.run Sys2Proof.core 4 (withHost (lineCmd .drip ++ lineRdResult) [])) =
    some { State.reset with cipher := { Cipher.resetValue with i := 1, j := 1, k := 2, z := 4 }, result := 4,
                            reads := [4] } := by decide

/-- The host's entry: the step after `withFetchWord` runs the word (here `ABSORB 0x41`, V-AB-2). -/
theorem test_withFetchWord : nextOf (step (State.reset.withFetchWord 32 0x00004102)) =
    some (State.reset.complete
      { Cipher.resetValue with a := 2, table := [(0, 0x81), (1, 0x84), (0x81, 0x00), (0x84, 0x01)] }) := by decide

/-! ### Witnesses: for each obligation with hypotheses, states and operands that meet them -/
/-- Well-formed commands, with an operand at each end of its range. -/
theorem witness_DecodeInvertsEncode : (Instr.absorbNibble 15).wellFormed true = true ∧
    (Instr.absorb 0).wellFormed false = true ∧ (Instr.final 255).wellFormed false = true ∧
    Instr.output.wellFormed true = true := by decide

/-- A legal word, on either build. -/
theorem witness_EncodeInvertsDecode : decode false 0x0000FF08 = .cmd (.crypt 255) ∧
    decode true 0x00000F14 = .cmd (.absorbNibble 15) := by decide

/-- One word for each reason a word is illegal, at the ends of the ranges, and one legal word. -/
theorem witness_IllegalWordsExactly :
    decode true 0x00010000 = .illegal .reservedBits ∧ decode true 0x0000000A = .illegal .reservedOpcode ∧
    decode true 0x0000000E = .illegal .reservedOpcode ∧ decode true 0x00000016 = .illegal .reservedOpcode ∧
    decode true 0x000000FF = .illegal .reservedOpcode ∧ decode false 0x00000010 = .illegal .primitiveAbsent ∧
    decode false 0x00000015 = .illegal .primitiveAbsent ∧ decode true 0x00000115 = .illegal .immediateInFormZ ∧
    decode true 0x00001014 = .illegal .nibbleTooWide ∧ decode true 0x00000F14 = .cmd (.absorbNibble 15) := by decide

/-- A CMD write while busy, of an illegal word, of a word refused while wiped, and of an accepted word. -/
theorem witness_CommandAcceptance :
    (State.HostMoves { withHost [.write .word 0x000 0x06] [.host] with busy := true } (.write .word 0x000 0x06) [] []) ∧
    (withHost [.write .word 0x000 0xFF] [.host]).HostMoves (.write .word 0x000 0xFF) [] [] ∧
    decode true 0xFF = .illegal .reservedOpcode ∧
    (State.HostMoves { withHost [.write .word 0x000 0x06] [.host] with valid := false } (.write .word 0x000 0x06) [] []) ∧
    decode true 0x06 = .cmd .drip ∧
    (withHost [.write .word 0x000 0x06] [.host, .engine]).HostMoves (.write .word 0x000 0x06) [] [.engine] :=
  ⟨⟨rfl, rfl, rfl⟩, ⟨rfl, rfl, rfl⟩, by decide, ⟨rfl, rfl, rfl⟩, by decide, ⟨rfl, rfl, rfl⟩⟩

/-- An ARG write while busy and while idle, and a UNIFORM that completes. -/
theorem witness_ArgWrite :
    (State.HostMoves { withHost [.write .word 0x008 6] [.host] with busy := true } (.write .word 0x008 6) [] []) ∧
    (withHost [.write .word 0x008 6] [.host]).HostMoves (.write .word 0x008 6) [] [] ∧
    nextOf (exec .uniform (withBound Cipher.resetValue 1)) = some State.reset :=
  ⟨⟨rfl, rfl, rfl⟩, ⟨rfl, rfl, rfl⟩, by decide⟩

/-- A STATUS write with bits 8 and 10 set and bit 9 clear. -/
theorem witness_StatusRegister :
    (withHost [.write .word 0x004 0x0500] [.host]).HostMoves (.write .word 0x004 0x0500) [] [] ∧
    (0x0500 : Word).getLsbD 8 = true ∧ (0x0500 : Word).getLsbD 9 = false ∧ (0x0500 : Word).getLsbD 10 = true :=
  ⟨⟨rfl, rfl, rfl⟩, by decide, by decide, by decide⟩

/-- An idle and a busy device, and a write to RESULT. -/
theorem witness_ResultRegister : State.reset.busy = false ∧ (withBound Cipher.resetValue 6).busy = true ∧
    (withHost [.write .word 0x00C 1] [.host]).HostMoves (.write .word 0x00C 1) [] [] :=
  ⟨rfl, rfl, ⟨rfl, rfl, rfl⟩⟩

/-- Readback on and off, idle and busy, and writes to CUR0 and CUR1. -/
theorem witness_CursorRegisters : State.reset.build.readback = true ∧ State.reset.busy = false ∧
    (State.resetOf ⟨true, false⟩).build.readback = false ∧ (withBound Cipher.resetValue 6).busy = true ∧
    (withHost [.write .word 0x010 1] [.host]).HostMoves (.write .word 0x010 1) [] [] ∧
    (withHost [.write .word 0x014 1] [.host]).HostMoves (.write .word 0x014 1) [] [] :=
  ⟨rfl, rfl, rfl, rfl, ⟨rfl, rfl, rfl⟩, ⟨rfl, rfl, rfl⟩⟩

/-- The first and the last word of the TABLE window. -/
theorem witness_TableWindow : (0 < 64 ∧ 63 < 64) ∧ State.reset.build.readback = true ∧ State.reset.busy = false ∧
    (State.resetOf ⟨true, false⟩).build.readback = false ∧
    (withHost [.write .word (0x100 + 4 * 63) 1] [.host]).HostMoves (.write .word (0x100 + 4 * 63) 1) [] [] :=
  ⟨by decide, rfl, rfl, rfl, ⟨rfl, rfl, rfl⟩⟩

/-- Writes to CAPS and to the last unmapped offset. -/
theorem witness_FixedRegisters :
    (withHost [.write .word 0x018 1] [.host]).HostMoves (.write .word 0x018 1) [] [] ∧
    (withHost [.write .word 0x0FC 1] [.host]).HostMoves (.write .word 0x0FC 1) [] [] ∧ 0x0FC % 4 = 0 :=
  ⟨⟨rfl, rfl, rfl⟩, ⟨rfl, rfl, rfl⟩, rfl⟩

/-- Reads of the first and the last register. -/
theorem witness_ReadsHaveNoSideEffect :
    (withHost [.read .word 0x000] [.host]).HostMoves (.read .word 0x000) [] [] ∧
    (withHost [.read .word 0x1FC, .wait] [.host]).HostMoves (.read .word 0x1FC) [.wait] [] ∧ 0x1FC < 0x200 :=
  ⟨⟨rfl, rfl, rfl⟩, ⟨rfl, rfl, rfl⟩, by decide⟩

/-- An access at 0x200, one that is no word, one that is not aligned, and one inside the interface. -/
theorem witness_AccessesOutsideInterface :
    (withHost [.read .word 0x200] [.host]).HostMoves (.read .word 0x200) [] [] ∧
    (withHost [.read .byte 0x004] [.host]).HostMoves (.read .byte 0x004) [] [] ∧
    (withHost [.write .word 0x1FD 0] [.host]).HostMoves (.write .word 0x1FD 0) [] [] ∧
    (withHost [.write .word 0x1FC 0] [.host]).HostMoves (.write .word 0x1FC 0) [] [] :=
  ⟨⟨rfl, rfl, rfl⟩, ⟨rfl, rfl, rfl⟩, ⟨rfl, rfl, rfl⟩, ⟨rfl, rfl, rfl⟩⟩

/-- A busy device and the same with another Cipher State and RESULT. -/
theorem witness_HiddenStateIsNotReadable : ∃ s t : State, s ≠ t ∧ s.busy = true ∧
    t = { s with cipher := t.cipher, result := t.result, draw := t.draw, latch := t.latch } :=
  ⟨withBound Cipher.resetValue 6, { withBound { Cipher.resetValue with i := 9 } 6 with result := 7 }, by decide, rfl,
    rfl⟩

/-- An idle device with readback, and the same with another LATCH and micro-state. -/
theorem witness_HiddenStateIsNotReadable_idle : ∃ s t : State, s ≠ t ∧ s.busy = false ∧ s.build.readback = true ∧
    t = { s with cipher := t.cipher, result := t.result, draw := t.draw, latch := t.latch } ∧ t.cipher = s.cipher ∧
    t.result = s.result :=
  ⟨State.reset, { State.reset with latch := some ⟨0x09, 6⟩, draw := some { Cipher.resetValue with i := 9 } }, by decide,
    rfl, rfl, rfl, rfl, rfl⟩

/-- UPDATE, from a state whose table is canonical. -/
theorem witness_UpdateStepsAndSwaps : State.reset.cipher.table.wf = true := rfl

/-- CRUSH of a pair in order and of a pair out of order, and of a permutation. -/
theorem witness_CrushSortsMirroredPairs :
    (let c : Cipher := { Cipher.resetValue with table := [(0, 0xFF), (255, 0x00)] }
     c.table.wf = true ∧ c.t 0 > c.t 255 ∧ ¬ c.t 127 > c.t 128) ∧ Cipher.resetValue.Permutation :=
  ⟨by decide, Cipher.reset_live.permutation⟩

/-- CRUSH twice, from a state whose table is canonical and out of order. -/
theorem witness_CrushTwiceIsCrushOnce : Memory.wf [(0, 0xFF), (255, 0x00)] = true := by decide

/-- A counter at 128, at 127 and at 0. -/
theorem witness_AbsorbNibbleSwapsAndCounts : State.reset.cipher.table.wf = true ∧
    (withCipher { Cipher.resetValue with a := 128 }).cipher.a = 128 ∧
    (withCipher { Cipher.resetValue with a := 127 }).cipher.a ≠ 128 ∧ (128 : Byte).toNat ≤ 128 := by decide

/-- A counter at 128, and at 0. -/
theorem witness_AbsorbStopOnlyCounts : (withCipher { Cipher.resetValue with a := 128 }).cipher.a = 128 ∧
    State.reset.cipher.a ≠ 128 ∧ State.reset.cipher.a.toNat ≤ 128 := by decide

/-- A sequence of nibble steps from a = 0. -/
theorem witness_AbsorptionCountingLaw :
    Cipher.resetValue.a = 0 ∧ ([.nibble 15, .stop] : List NibbleStep) ≠ [] := by decide

/-- A sequence that triggers no shuffle, up to a = 128. -/
theorem witness_AbsorptionWritesLowSlots : Cipher.resetValue.table.wf = true ∧
    Cipher.resetValue.a.toNat ≤ 128 ∧ Cipher.resetValue.shufflesIn [.nibble 15, .stop] = 0 ∧
    Cipher.shufflesIn { Cipher.resetValue with a := 127 } [.nibble 15] = 0 ∧ 143 < (144 : Byte).toNat := by decide

/-- A state with pending absorption, and one without. -/
theorem witness_DripShufflesUpdatesOutputs : (withCipher { Cipher.resetValue with a := 1 }).cipher.a ≠ 0 ∧
    State.reset.cipher.a = 0 := by decide

/-- Squeezing one byte. -/
theorem witness_SqueezeIsDrips : 1 ≤ 1 := by decide

/-- INIT answers a next state from the reset state. -/
theorem witness_InitResetsCipher : exec .init State.reset = .next State.reset := rfl

/-- A state with pending absorption, and one without. -/
theorem witness_FlushShufflesIffPending : (withCipher { Cipher.resetValue with a := 128 }).cipher.a ≠ 0 ∧
    State.reset.cipher.a = 0 := by decide

/-- A counter in range, at its end. -/
theorem witness_FinalBindsLength : (withCipher { Cipher.resetValue with a := 128 }).cipher.a.toNat ≤ 128 := by decide

/-- Bounds 0 and 1, latched. -/
theorem witness_UniformSmallBoundDrawsNothing :
    (withBound Cipher.resetValue 0).latch = some ⟨0x09, 0⟩ ∧ (withBound Cipher.resetValue 1).latch = some ⟨0x09, 1⟩ ∧
    (0 : Word).toNat < 2 ∧ (1 : Word).toNat < 2 := by decide

/-- The draw of V-R32-1 with bound 6 (min 4), and with the greatest bound (min 1). -/
theorem witness_UniformAcceptedDraw :
    (withBound Cipher.resetValue 6).latch = some ⟨0x09, 6⟩ ∧ (withBound Cipher.resetValue 6).draw = none ∧
    (2 ^ 32 - 6) % 6 ≤ Cipher.resetValue.random32Value.toNat ∧
    (2 ^ 32 - 0xFFFFFFFF) % 0xFFFFFFFF ≤ Cipher.resetValue.random32Value.toNat := by
  rw [test_random32]
  decide

/-- A live Cipher State whose first draw is below min for the bound 0x80000001, and whose second is not. -/
def rejecting : Cipher := { Cipher.resetValue with k := 1 }

/-- Its first draw, and its second. -/
theorem rejecting_draws : rejecting.random32Value = 291380487 ∧ rejecting.drawValue 1 = 4225492976 := by decide +kernel

/-- A first draw below min, and a later one, made from the working copy. -/
theorem witness_UniformRejectedDraw :
    (withBound rejecting 0x80000001).latch = some ⟨0x09, 0x80000001⟩ ∧
    (withBound rejecting 0x80000001).working.random32Value.toNat < (2 ^ 32 - 0x80000001) % 0x80000001 ∧
    (State.working { withBound Cipher.resetValue 0x80000001 with draw := some rejecting }).random32Value.toNat <
      (2 ^ 32 - 0x80000001) % 0x80000001 := by
  have h : rejecting.random32Value.toNat < (2 ^ 32 - 0x80000001) % 0x80000001 := by rw [rejecting_draws.1]; decide
  exact ⟨rfl, h, h⟩

/-- A running UNIFORM whose loop rejects one draw and then ends. -/
theorem witness_UniformRunsItsLoop :
    (withBound rejecting 0x80000001).latch = some ⟨0x09, 0x80000001⟩ ∧ decode true 0x09 = .cmd .uniform ∧
    (withBound rejecting 0x80000001).draw = none ∧ (withBound rejecting 0x80000001).busy = true ∧
    (withBound rejecting 0x80000001).resetDone = true ∧ (withBound rejecting 0x80000001).schedule = [] ∧
    rejecting.LoopEndsAt 0x80000001 1 := by
  refine ⟨rfl, by decide, rfl, rfl, rfl, rfl, fun m hm => ?_, ?_⟩
  · have h0 : rejecting.drawValue m = 291380487 := by
      rw [show m = 0 by omega, Cipher.drawValue, Cipher.draws, Cipher.random32_snd, rejecting_draws.1]
    rw [h0]
    decide
  · rw [rejecting_draws.2]
    decide

/-- The identity table with the stride 0, a state that no run reaches: it draws 0 for ever. -/
def still : Cipher := { Cipher.resetValue with w := 0 }

/-- A draw leaves it as it is and gives 0. -/
theorem still_draws : still.random32State = still ∧ still.random32Value = 0 := by
  have h : still.dripped = still := by decide
  simp only [Cipher.random32State, Cipher.random32Value, h]
  exact ⟨trivial, rfl⟩

/-- A running UNIFORM that never accepts a draw: every draw is 0, and bound 3 has min 1. -/
theorem witness_UniformMayNeverEnd :
    (withBound still 3).latch = some ⟨0x09, 3⟩ ∧ decode true 0x09 = .cmd .uniform ∧
    (withBound still 3).draw = none ∧ (withBound still 3).busy = true ∧
    (withBound still 3).resetDone = true ∧ (withBound still 3).schedule = [] ∧
    ∀ n, still.RejectsFirst 3 n := by
  refine ⟨rfl, by decide, rfl, rfl, rfl, rfl, fun n m _ => ?_⟩
  have h : ∀ k, Cipher.draws k still = still := by
    intro k
    induction k with
    | zero => rw [Cipher.draws]
    | succ k ih => rw [Cipher.draws, ih, Cipher.random32_fst, still_draws.1]
  rw [Cipher.drawValue, h, Cipher.random32_snd, still_draws.2]
  decide

/-- Bounds 2 and 2^32 - 1, and a result value of each. -/
theorem witness_UniformIsUnbiased : 2 ≤ (2 : Word).toNat ∧ 2 ≤ (0xFFFFFFFF : Word).toNat ∧ 1 < (2 : Word).toNat := by
  decide

/-- Offsets of the readback registers and of RESULT, and a WIPE that answers a next state. -/
theorem witness_WipeZeroesEverything : (0x00C ≠ 0x004 ∧ 0x00C ≠ 0x018) ∧ (0x1FC ≠ 0x004 ∧ 0x1FC ≠ 0x018) ∧
    ∃ t, exec .wipe State.reset = .next t := ⟨by decide, by decide, _, rfl⟩

/-- A wiped, idle device whose Engine turn does nothing. -/
theorem witness_WipedStateYieldsNothing :
    State.Inv { withHost [] [.engine] with cipher := Cipher.wiped, valid := false } ∧
    step { withHost [] [.engine] with cipher := Cipher.wiped, valid := false } =
      .next { withHost [] [] with cipher := Cipher.wiped, valid := false } := by
  refine ⟨⟨Cipher.wiped_wf, Nat.zero_le _, ?_, ?_, rfl, ?_, ?_⟩, rfl⟩
  · intro h
    cases h
  · intro h
    cases h
  · intro l h
    cases h
  · intro c h
    cases h

/-- A latched NOP, with the Engine scheduled and with an empty schedule. -/
theorem witness_StepRunsLatchedCommand :
    (State.reset.loadCommand 0).latch = some ⟨0, 0⟩ ∧ decode true 0 = .cmd .nop ∧
    (State.reset.loadCommand 0).busy = true ∧ (State.reset.loadCommand 0).resetDone = true ∧
    (State.reset.loadCommand 0).schedule = .engine :: [] ∧ (withBound Cipher.resetValue 6).schedule = [] :=
  ⟨rfl, by decide, rfl, rfl, rfl, rfl⟩

/-- A hardware reset scheduled while a command runs. -/
theorem witness_HardwareResetSetsEveryItem :
    (State.schedule { withBound rejecting 6 with schedule := [.hardReset, .host] }) = .hardReset :: [.host] := rfl

/-- An idle device with nothing to do, with a read of the last register, and with a WAIT; the Host to move, by the
schedule and by the rule for an empty one, and the Engine. -/
theorem witness_ResetWaitsForCommand :
    ((withHost [] []).mover = .host ∧ (withHost [] []).busy = false ∧ (withHost [] []).resetDone = true) ∧
    ((withHost [.read .word 0x1FC] [.host]).mover = .host ∧ 0x1FC < 0x200 ∧ 0x1FC % 4 = 0) ∧
    (withHost [.wait, .write .word 0 0] [.engine]).mover = .engine :=
  ⟨⟨rfl, rfl, rfl⟩, ⟨rfl, by decide, rfl⟩, rfl⟩

/-- A state with the invariant, and its step. -/
theorem witness_StepKeepsInvariant : State.reset.Inv ∧ step State.reset = .next State.reset := by
  refine ⟨⟨rfl, Nat.zero_le _, fun _ => Cipher.reset_live.permutation, fun _ => Cipher.reset_live.strideOdd, rfl, ?_, ?_⟩,
    rfl⟩
  · intro l h
    cases h
  · intro c h
    cases h

/-- A reached live state that is not the first. -/
theorem witness_TableStaysPermutation :
    Reaches { State.resetOf Build.reference with program := [.wait], schedule := [] } State.reset ∧
    State.reset.valid = true := ⟨⟨1, rfl⟩, rfl⟩

/-- A flag that a STATUS write clears, one that a CMD write raises, and E_BUSY raised by an ARG write. -/
theorem witness_ErrorFlagsAreSticky :
    step { withHost [.write .word 0x004 0x0100] [] with errIllegal := true } = .next State.reset ∧
    step (withHost [.write .word 0x000 0xFF] []) = .next { State.reset with errIllegal := true } ∧
    step { withHost [.write .word 0x008 1] [.host] with busy := true } =
      .next { State.reset with busy := true, errBusy := true } := ⟨rfl, rfl, rfl⟩

/-- VALID set by INIT and cleared by WIPE, BUSY set by a CMD write and cleared by the Engine. -/
theorem witness_ValidAndBusyChangeOnlyByRule :
    (∃ t, step { State.reset.loadCommand 0x01 with valid := false } = .next t ∧ t.valid = true) ∧
    (∃ t, step (State.reset.loadCommand 0x0F) = .next t ∧ t.valid = false) ∧
    (∃ t, step (withHost [.write .word 0x000 0x06] []) = .next t ∧ t.busy = true) ∧
    ∃ t, step (State.reset.loadCommand 0x00) = .next t ∧ t.busy = false :=
  ⟨⟨_, rfl, rfl⟩, ⟨_, rfl, rfl⟩, ⟨_, rfl, rfl⟩, _, rfl, rfl⟩

/-- A step that completes a command, and one of a command that goes on running. -/
theorem witness_EffectsAppearAtCompletion :
    (∃ t, step (State.reset.loadCommand 0x03) = .next t ∧ (State.reset.loadCommand 0x03).mover ≠ .hardReset ∧
      t.cipher ≠ Cipher.resetValue) ∧
    ∃ t, step { withBound Cipher.resetValue 6 with schedule := [.host] } = .next t ∧ t.busy = true :=
  ⟨⟨_, rfl, by decide, by decide⟩, _, rfl, rfl⟩

/-- A step that writes RESULT, and one that writes ARG. -/
theorem witness_ResultAndArgWriters :
    (∃ t, step { State.reset.loadCommand 0x01 with result := 7 } = .next t ∧ t.result ≠ 7) ∧
    ∃ t, step (withHost [.write .word 0x008 6] []) = .next t ∧ t.arg ≠ 0 :=
  ⟨⟨_, rfl, by decide⟩, _, rfl, by decide⟩

/-- Two busy devices with the same E, LATCH and working copy and other registers that differ. -/
theorem witness_CommandIsFunctionOfEngineState :
    (withBound Cipher.resetValue 1).busy = true ∧
    (∃ t, exec .uniform (withBound Cipher.resetValue 1) = .next t) ∧
    (State.cipher { withBound Cipher.resetValue 1 with arg := 9, result := 3 }) = Cipher.resetValue :=
  ⟨rfl, ⟨_, rfl⟩, rfl⟩

/-- A running NOP and a Host about to write a DRIP. -/
theorem witness_NowaitRaceHasTwoOutcomes :
    (∃ u, exec .nop { State.reset.loadCommand 0 with program := [.write .word 0x000 0x06], schedule := [] } = .next u ∧
      u.busy = false ∧ u.valid = true) ∧
    decode true 0 = .cmd .nop ∧ decode true 0x06 = .cmd .drip :=
  ⟨⟨_, rfl, rfl, rfl⟩, by decide, by decide⟩

/-- A device without power-up reset, with each agent to move; a power loss and a hardware reset scheduled. -/
theorem witness_RefusedBeforeHardwareReset :
    (State.resetDone { withHost [.read .word 0] [.host] with resetDone := false }) = false ∧
    (State.program { withHost [.read .word 0] [.host] with resetDone := false }) ≠ [] ∧
    (withHost [] [.engine]).schedule = .engine :: [] ∧ (withHost [] [.powerLoss]).schedule = .powerLoss :: [] ∧
    (withHost [] [.hardReset]).schedule = .hardReset :: [] := by decide

/-- Two instances, one at 0x1000 and the next right after it; a step of each. -/
theorem witness_InstancesShareNothing :
    (let p : Platform := [⟨0x1000, State.reset⟩, ⟨0x1200, withHost [.write .word 0x008 6] []⟩]
     p.disjoint ∧ p.stepAt 0 = .next p ∧
     p.stepAt 1 = .next [⟨0x1000, State.reset⟩, ⟨0x1200, { State.reset with arg := 6 }⟩] ∧
     p[1]? = some ⟨0x1200, withHost [.write .word 0x008 6] []⟩ ∧ 0x1FF < 0x200) := by
  refine ⟨?_, rfl, rfl, rfl, by decide⟩
  exact .cons (fun y hy => .inl (by rw [List.mem_singleton.mp hy]; decide)) (.cons (by simp) .nil)

/-- Host and Engine turns in a list are an interleaving. -/
theorem anyOrder_withHost {ops : List HostOp} {turns : List Turn} (h : ∀ t ∈ turns, t = .host ∨ t = .engine) :
    (withHost ops turns).Interleaving := h

/-- A Host about to squeeze no byte and one byte. -/
theorem witness_SqueezeSequence : (withHost (squeezeLines 0) []).HostReady (squeezeLines 0) [] ∧
    (withHost (squeezeLines 1 ++ [.wait]) [.engine, .host]).HostReady (squeezeLines 1) [.wait] :=
  ⟨⟨⟨rfl, rfl, anyOrder_withHost (by decide), rfl⟩, rfl⟩,
    ⟨⟨rfl, rfl, anyOrder_withHost (by decide), rfl⟩, rfl⟩⟩

/-- The same device wiped. -/
def wipedWithHost (ops : List HostOp) (turns : List Turn) : State :=
  { withHost ops turns with cipher := Cipher.wiped, valid := false }

/-- The same of its turns. -/
theorem anyOrder_wipedWithHost {ops : List HostOp} {turns : List Turn} (h : ∀ t ∈ turns, t = .host ∨ t = .engine) :
    (wipedWithHost ops turns).Interleaving := h

/-- A Host about to set up, with an empty key and nonce and with one byte of each, on a live and on a wiped device. -/
theorem witness_SetupSequences : (withHost (setupLines []) []).HostIdle (setupLines []) [] ∧
    (withHost (setupIVLines [0x41] [0x42]) []).HostIdle (setupIVLines [0x41] [0x42]) [] ∧
    (wipedWithHost (setupLines []) [.engine]).HostIdle (setupLines []) [] ∧
    (wipedWithHost (setupIVLines [] [0x42]) []).HostIdle (setupIVLines [] [0x42]) [] :=
  ⟨⟨rfl, rfl, anyOrder_withHost (by decide), rfl⟩, ⟨rfl, rfl, anyOrder_withHost (by decide), rfl⟩,
    ⟨rfl, rfl, anyOrder_wipedWithHost (by decide), rfl⟩, ⟨rfl, rfl, anyOrder_wipedWithHost (by decide), rfl⟩⟩

/-- A Host about to encrypt two bytes. -/
theorem witness_CryptBufferSequence :
    (withHost (cryptBufLines [0x48, 0x65]) [.host]).HostReady (cryptBufLines [0x48, 0x65]) [] :=
  ⟨⟨rfl, rfl, anyOrder_withHost (by decide), rfl⟩, rfl⟩

/-- A Host about to hash, and one about to authenticate, on a live and on a wiped device. -/
theorem witness_HashAndMacSequences : (withHost (hashLines [0x41] 0) []).HostIdle (hashLines [0x41] 0) [] ∧
    (withHost (macLines [0x4D] [0x4B] 1) []).HostIdle (macLines [0x4D] [0x4B] 1) [] ∧
    (wipedWithHost (hashLines [] 1) []).HostIdle (hashLines [] 1) [] ∧
    (wipedWithHost (macLines [] [] 0) [.host]).HostIdle (macLines [] [] 0) [] :=
  ⟨⟨rfl, rfl, anyOrder_withHost (by decide), rfl⟩, ⟨rfl, rfl, anyOrder_withHost (by decide), rfl⟩,
    ⟨rfl, rfl, anyOrder_wipedWithHost (by decide), rfl⟩, ⟨rfl, rfl, anyOrder_wipedWithHost (by decide), rfl⟩⟩

end Sys2Proof.Tests
end

section
/-! PROOFS. What each kind of step does to the device, said once for the statements about the state (10_state.md): the
effect of a Host turn, and what a command does to VALID, RESULT, ARG and the error flags. -/

namespace Sys2Proof.Machine

/-- Taking the mover's turn off the schedule keeps RESULT. -/
@[simp] theorem State.afterTurn_result (s : State) : s.afterTurn.result = s.result := rfl

/-! ### Host turns -/

/-- What a completed Host turn does, by the access: nothing to the device, or the effect of a write of CMD, STATUS or
ARG (10_state.md R33 to R41, 60_exceptions.md R222, R223). -/
inductive State.HostEffect (s : State) : State → Prop where
  /-- A read, a poll, an ignored write or nothing to do: only the Host's own data move. -/
  | quiet (ops : List HostOp) (vs : List Word) : s.HostEffect { s with program := ops, reads := vs }
  /-- A dropped CMD write. -/
  | cmdDropped (e : Err) (w : Word) (rest : List HostOp) (hp : s.program = .write .word 0x000 w :: rest) :
    s.HostEffect ((s.raise e).hostDone rest)
  /-- An accepted CMD write. -/
  | cmdLatched (i : Instr) (w : Word) (rest : List HostOp) (hp : s.program = .write .word 0x000 w :: rest)
    (idle : s.busy = false) (hd : decode s.build.primitives w = .cmd i)
    (legal : s.valid = true ∨ legalWhileWiped i = true) : s.HostEffect ((s.latchCommand w).hostDone rest)
  /-- A STATUS write. -/
  | statusWritten (v : Word) (rest : List HostOp) (hp : s.program = .write .word 0x004 v :: rest) :
    s.HostEffect ((s.clearErrors v).hostDone rest)
  /-- An ARG write dropped by a busy device. -/
  | argDropped (v : Word) (rest : List HostOp) (hp : s.program = .write .word 0x008 v :: rest) :
    s.HostEffect ((s.raise .busy).hostDone rest)
  /-- An ARG write taken by an idle device. -/
  | argWritten (v : Word) (rest : List HostOp) (hp : s.program = .write .word 0x008 v :: rest)
    (idle : s.busy = false) : s.HostEffect { s with arg := v, program := rest }

/-- A register write that the Host issues has one of the effects of a Host turn. -/
theorem State.regWrite_effect {s : State} {off : Nat} {v : Word} {rest : List HostOp}
    (hp : s.program = .write .word off v :: rest) : s.HostEffect ((s.regWrite off v).hostDone rest) := by
  rcases s.regWrite_cases off v with ⟨rfl, h⟩ | ⟨rfl, h⟩ | ⟨rfl, -, h⟩ | ⟨rfl, idle, h⟩ | ⟨-, -, -, h⟩
  · rw [h]
    rcases s.accept_cases v with ⟨-, h⟩ | ⟨-, -, h⟩ | ⟨idle, i, hd, ⟨-, -, h⟩ | ⟨legal, h⟩⟩
    · exact h ▸ .cmdDropped .busy v rest hp
    · exact h ▸ .cmdDropped .illegal v rest hp
    · exact h ▸ .cmdDropped .invalid v rest hp
    · exact h ▸ .cmdLatched i v rest hp idle hd legal
  · exact h ▸ .statusWritten v rest hp
  · exact h ▸ .argDropped v rest hp
  · exact h ▸ .argWritten v rest hp idle
  · rw [h]
    exact .quiet rest s.reads

/-- Every Host turn that answers a next state has one of the effects. -/
theorem State.hostTurn_effect {s t : State} (h : s.hostTurn = .next t) : s.HostEffect t := by
  rcases State.hostTurn_cases h with
    ⟨-, rfl⟩ | ⟨op, rest, hp, -, ⟨-, -, rfl⟩ | ⟨-, -, rfl⟩ | ⟨off, -, rfl⟩ | ⟨off, v, rfl, rfl⟩⟩
  · exact .quiet t.program t.reads
  · exact .quiet t.program t.reads
  · exact .quiet rest s.reads
  · exact .quiet rest (s.reads ++ [s.regRead off])
  · exact State.regWrite_effect hp

section HostFrame

variable {s t : State} (h : s.HostEffect t)
include h

/-- No Host turn changes VALID (R27). -/
theorem State.HostEffect.valid_eq : t.valid = s.valid := by cases h <;> simp

/-- No Host turn changes RESULT (R30). -/
theorem State.HostEffect.result_eq : t.result = s.result := by cases h <;> simp

/-- A Host turn keeps BUSY, or it is an accepted CMD write of an idle device, whose word is then the latched command
(R28). -/
theorem State.HostEffect.busy_cases : t.busy = s.busy ∨
    (s.busy = false ∧ t.busy = true ∧ ∃ w rest i, s.program = .write .word 0x000 w :: rest ∧
      decode s.build.primitives w = .cmd i ∧ t.fetch = some i) := by
  cases h with
  | cmdLatched i w rest hp idle hd =>
    exact .inr ⟨idle, rfl, w, rest, i, hp, hd, congrArg Decoded.instr? hd⟩
  | quiet => exact .inl rfl
  | cmdDropped e => exact .inl (s.raise_busy e)
  | statusWritten => exact .inl rfl
  | argDropped => exact .inl rfl
  | argWritten => exact .inl rfl

/-- A Host turn keeps ARG, or it is an ARG write to an idle device (R29). -/
theorem State.HostEffect.arg_cases : t.arg = s.arg ∨
    (s.busy = false ∧ ∃ v rest, s.program = .write .word 0x008 v :: rest ∧ t.arg = v) := by
  cases h with
  | argWritten v rest hp idle => exact .inr ⟨idle, v, rest, hp, rfl⟩
  | quiet => exact .inl rfl
  | cmdDropped e => exact .inl (s.raise_arg e)
  | cmdLatched => exact .inl rfl
  | statusWritten => exact .inl rfl
  | argDropped => exact .inl rfl

end HostFrame

/-! ### Commands -/

section Commands

variable {i : Instr} {s t : State} (h : exec i s = .next t)
include h

/-- A command changes VALID only where INIT sets it and WIPE clears it (R27). -/
theorem exec_valid : t.valid = s.valid ∨ (i = .init ∧ t.valid = true) ∨ (i = .wipe ∧ t.valid = false) := by
  rcases exec_cases h with ⟨-, c, rfl⟩ | ⟨-, -, -, c, r, rfl⟩ | ⟨hi, rfl⟩ | ⟨hi, rfl⟩ | ⟨-, l, -, -, -, rfl⟩
  · exact .inl rfl
  · exact .inl rfl
  · exact .inr (.inl ⟨hi, rfl⟩)
  · exact .inr (.inr ⟨hi, rfl⟩)
  · exact .inl rfl

/-- A command that does not write RESULT leaves it (R30). -/
theorem exec_result_of_not_writesResult (hw : writesResult i = false) : t.result = s.result := by
  rcases exec_cases h with ⟨-, c, rfl⟩ | ⟨hw', -⟩ | ⟨rfl, -⟩ | ⟨rfl, -⟩ | ⟨rfl, -⟩
  · rfl
  · cases hw'.symm.trans hw
  · cases hw
  · cases hw
  · cases hw

/-- No command but WIPE changes ARG (R29). -/
theorem exec_arg : t.arg = s.arg ∨ i = .wipe := by
  rcases exec_cases h with ⟨-, c, rfl⟩ | ⟨-, -, -, c, r, rfl⟩ | ⟨-, rfl⟩ | ⟨hi, -⟩ | ⟨-, l, -, -, -, rfl⟩
  · exact .inl rfl
  · exact .inl rfl
  · exact .inl rfl
  · exact .inr hi
  · exact .inl rfl

end Commands

end Sys2Proof.Machine
end

section
/-! PROOFS. The invariant (10_state.md R24 to R28): it holds at reset, every step keeps it, and so T is a bijection in
every live state that a run reaches. -/

namespace Sys2Proof.Machine

/-! ### The items the invariant speaks of -/

/-- The items of the state that the invariant speaks of: E, VALID, BUSY, LATCH, the build and the working copy. -/
def State.engineItems (s : State) : Cipher × Bool × Bool × Option Latch × Build × Option Cipher :=
  (s.cipher, s.valid, s.busy, s.latch, s.build, s.draw)

/-- Raising an error touches none of them. -/
@[simp] theorem State.raise_engineItems (s : State) (e : Err) : (s.raise e).engineItems = s.engineItems := by
  cases e <;> rfl

/-- The invariant depends on these items only. -/
theorem State.Inv.congr {s t : State} (h : s.Inv) (e : t.engineItems = s.engineItems) : t.Inv := by
  simp only [State.engineItems, Prod.mk.injEq] at e
  obtain ⟨hcipher, hvalid, hbusy, hlatch, hbuild, hdraw⟩ := e
  exact {
    tableWf := hcipher ▸ h.tableWf
    countInRange := hcipher ▸ h.countInRange
    livePermutation := by simpa only [hcipher, hvalid] using h.livePermutation
    liveStride := by simpa only [hcipher, hvalid] using h.liveStride
    busyIffLatched := by simpa only [hbusy, hlatch] using h.busyIffLatched
    latchedLegal := by simpa only [hvalid, hlatch, hbuild] using h.latchedLegal
    drawOfUniform := by
      simpa only [State.DrawInProgress, hcipher, hlatch, hbuild, hdraw] using h.drawOfUniform }

/-- The Engine fetches a command exactly when LATCH holds a word that decodes to it (R28). -/
theorem State.fetch_eq_some {s : State} {i : Instr} :
    s.fetch = some i ↔ ∃ l, s.latch = some l ∧ decode s.build.primitives l.word = .cmd i := by
  have instr?_eq_some : ∀ d : Decoded, d.instr? = some i ↔ d = .cmd i := by
    intro d
    cases d <;> simp [Decoded.instr?]
  unfold State.fetch
  cases s.latch with
  | none => simp
  | some l => simp [instr?_eq_some]

/-! ### What the invariant gives -/

section Consequences

variable {s : State} (h : s.Inv)
include h

/-- The Cipher State of a live device is live. -/
theorem State.Inv.live (hv : s.valid = true) : s.cipher.Live :=
  ⟨h.tableWf, h.livePermutation hv, h.liveStride hv, h.countInRange⟩

/-- An idle device has an empty LATCH. -/
theorem State.Inv.latch_of_idle (hb : s.busy = false) : s.latch = none := by
  have := h.busyIffLatched
  rwa [hb, eq_comm, Option.isSome_eq_false_iff, Option.isNone_iff_eq_none] at this

/-- An idle device has no working copy: one belongs to a latched UNIFORM. -/
theorem State.Inv.draw_of_idle (hb : s.busy = false) : s.draw = none := by
  cases hd : s.draw with
  | none => rfl
  | some c =>
    obtain ⟨l, n, hl, -⟩ := h.drawOfUniform c hd
    rw [h.latch_of_idle hb] at hl
    cases hl

/-- The working copy of the latched command is E after some rejected draws: none of them before the first. -/
theorem State.Inv.working_eq_draws {l : Latch} (hl : s.latch = some l) :
    ∃ n, s.working = Cipher.draws n s.cipher ∧ s.cipher.RejectsFirst l.bound n := by
  cases hd : s.draw with
  | none => exact ⟨0, State.working_of_draw_none hd, fun m hm => absurd hm (Nat.not_lt_zero m)⟩
  | some c =>
    obtain ⟨l', n, hl', -, -, hc, hrej⟩ := h.drawOfUniform c hd
    obtain rfl : l' = l := Option.some.inj (hl'.symm.trans hl)
    exact ⟨n, (State.working_of_draw_some hd).trans hc, hrej⟩

/-- The working copy of a live device is live. -/
theorem State.Inv.working_live (hv : s.valid = true) : s.working.Live := by
  cases hd : s.draw with
  | none => exact State.working_of_draw_none hd ▸ h.live hv
  | some c =>
    obtain ⟨l, n, -, -, -, rfl, -⟩ := h.drawOfUniform c hd
    exact State.working_of_draw_some hd ▸ (h.live hv).draws n

/-- The command the Engine runs is legal for the state: a wiped device runs NOP, INIT and WIPE only (R222). -/
theorem State.Inv.fetch_legal {i : Instr} (hf : s.fetch = some i) : s.valid = true ∨ legalWhileWiped i = true := by
  obtain ⟨l, hl, hd⟩ := State.fetch_eq_some.mp hf
  obtain ⟨i', hd', legal⟩ := h.latchedLegal l hl
  obtain rfl : i' = i := Decoded.cmd.inj (hd'.symm.trans hd)
  exact legal

end Consequences

/-! ### The invariant through an Engine turn -/

/-- The Cipher State is live, or the device is wiped and the Cipher State is in its table and counter sound. -/
def State.CipherSound (s : State) : Prop :=
  s.cipher.Live ∨ (s.valid = false ∧ s.cipher.table.wf = true ∧ s.cipher.CountInRange)

/-- The invariant gives a sound Cipher State. -/
theorem State.Inv.cipherSound {s : State} (h : s.Inv) : s.CipherSound := by
  cases hv : s.valid with
  | true => exact .inl (h.live hv)
  | false => exact .inr ⟨hv, h.tableWf, h.countInRange⟩

/-- A state with a sound Cipher State in which no command runs has the invariant. -/
theorem State.Inv.of_idle {s : State} (hc : s.CipherSound) (hb : s.busy = false) (hl : s.latch = none)
    (hd : s.draw = none) : s.Inv where
  tableWf := hc.elim (·.tableWf) fun ⟨_, hwf, _⟩ => hwf
  countInRange := hc.elim (·.countInRange) fun ⟨_, _, ha⟩ => ha
  livePermutation hv := hc.elim (·.permutation) fun ⟨hw, _⟩ => by cases hw.symm.trans hv
  liveStride hv := hc.elim (·.strideOdd) fun ⟨hw, _⟩ => by cases hw.symm.trans hv
  busyIffLatched := by rw [hb, hl]; rfl
  latchedLegal l h := by cases hl.symm.trans h
  drawOfUniform c h := by cases hd.symm.trans h

/-- The latched command leaves a sound Cipher State: a live one stays live but through WIPE, and a wiped device runs NOP,
INIT and WIPE only. -/
theorem State.Inv.exec_cipherSound {s t : State} {i : Instr} (h : s.Inv) (hf : s.fetch = some i)
    (hx : exec i s = .next t) : t.CipherSound := by
  cases hw : legalWhileWiped i with
  | false =>
    have hv : s.valid = true := (h.fetch_legal hf).resolve_right (by simp [hw])
    have hi : i ≠ .wipe := by
      rintro rfl
      cases hw
    exact .inl (exec_live hx (h.live hv) (h.working_live hv) hi)
  | true =>
    cases i with
    | nop => exact Host.Outcome.next.inj hx ▸ h.cipherSound
    | init => exact .inl (Host.Outcome.next.inj hx ▸ Cipher.reset_live)
    | wipe => exact .inr (Host.Outcome.next.inj hx ▸ ⟨rfl, Cipher.wiped_wf, Nat.zero_le 128⟩)
    | absorb | absorbStop | flush | final | drip | random32 | crypt | uniform | update | whip | crush | shuffle
    | absorbNibble | output => cases hw

/-- One more rejected draw. -/
theorem Cipher.RejectsFirst.succ {c : Cipher} {bound : Word} {n : Nat} (h : c.RejectsFirst bound n)
    (hr : uniformAccepts bound (c.drawValue n) = false) : c.RejectsFirst bound (n + 1) := by
  intro m hm
  rcases Nat.lt_succ_iff_lt_or_eq.mp hm with hlt | rfl
  · exact h m hlt
  · exact hr

/-- A rejected draw of the latched UNIFORM keeps the invariant: the new working copy is E after one draw more. -/
theorem State.Inv.redraw {s : State} {l : Latch} (h : s.Inv) (hf : s.fetch = some .uniform) (hl : s.latch = some l)
    (hbound : 2 ≤ l.bound.toNat) (hrej : uniformAccepts l.bound s.working.random32.2 = false) :
    State.Inv { s with draw := some s.working.random32.1 } where
  tableWf := h.tableWf
  countInRange := h.countInRange
  livePermutation := h.livePermutation
  liveStride := h.liveStride
  busyIffLatched := h.busyIffLatched
  latchedLegal := h.latchedLegal
  drawOfUniform := by
    intro c hc
    obtain rfl := Option.some.inj hc
    obtain ⟨l', hl', hd⟩ := State.fetch_eq_some.mp hf
    obtain rfl : l' = l := Option.some.inj (hl'.symm.trans hl)
    obtain ⟨n, hw, hfirst⟩ := h.working_eq_draws hl
    rw [hw] at hrej ⊢
    exact ⟨l', n + 1, hl, hd, hbound, rfl, hfirst.succ hrej⟩

/-- The latched command keeps the invariant, whether it completes or rejects a draw. -/
theorem State.Inv.exec {s t : State} {i : Instr} (h : s.Inv) (hf : s.fetch = some i) (hx : exec i s = .next t) :
    t.Inv := by
  have hc := h.exec_cipherSound hf hx
  rcases exec_cases hx with
    ⟨-, c, rfl⟩ | ⟨-, -, -, c, r, rfl⟩ | ⟨-, rfl⟩ | ⟨-, rfl⟩ | ⟨rfl, l, hl, hbound, hrej, rfl⟩
  · exact .of_idle hc rfl rfl rfl
  · exact .of_idle hc rfl rfl rfl
  · exact .of_idle hc rfl rfl rfl
  · exact .of_idle hc rfl rfl rfl
  · exact h.redraw hf hl hbound hrej

/-! ### The invariant through the other turns -/

/-- An accepted CMD write keeps the invariant: the word it latches is legal, and an idle device has no working copy. -/
theorem State.Inv.latchCommand {s : State} {w : Word} {i : Instr} (h : s.Inv) (idle : s.busy = false)
    (hd : decode s.build.primitives w = .cmd i) (legal : s.valid = true ∨ legalWhileWiped i = true) :
    (s.latchCommand w).Inv where
  tableWf := h.tableWf
  countInRange := h.countInRange
  livePermutation := h.livePermutation
  liveStride := h.liveStride
  busyIffLatched := rfl
  latchedLegal := by
    rintro l ⟨⟩
    exact ⟨i, hd, legal⟩
  drawOfUniform c hc := by cases (h.draw_of_idle idle).symm.trans hc

/-- A Host turn keeps the invariant: only an accepted CMD write touches an item it speaks of. -/
theorem State.HostEffect.inv {s t : State} (e : s.HostEffect t) (h : s.Inv) : t.Inv := by
  cases e with
  | cmdLatched i w rest hp idle hd legal => exact (h.latchCommand idle hd legal).congr rfl
  | cmdDropped e => exact h.congr (s.raise_engineItems e)
  | argDropped => exact h.congr rfl
  | quiet => exact h.congr rfl
  | statusWritten => exact h.congr rfl
  | argWritten => exact h.congr rfl

/-- Hardware reset gives the invariant, whatever the state (R250). -/
theorem State.hardReset_inv (s : State) : s.hardReset.Inv := .of_idle (.inl Cipher.reset_live) rfl rfl rfl

/-- Settles O46: right after reset no command runs and the Cipher State is the live one of R44. -/
theorem invariantHoldsAtReset : Obligations.InvariantHoldsAtReset :=
  fun _ _ _ => .of_idle (.inl Cipher.reset_live) rfl rfl rfl

/-- Settles O47, by the agent that moves. -/
theorem stepKeepsInvariant : Obligations.StepKeepsInvariant := by
  intro s t h hs
  have h' : s.afterTurn.Inv := h.congr rfl
  rcases step_cases hs with ⟨-, hturn⟩ | ⟨-, hturn⟩ | ⟨-, rfl⟩ | ⟨-, rfl⟩
  · exact (State.hostTurn_effect hturn).inv h'
  · rcases State.engineTurn_cases hturn with ⟨-, ⟨-, rfl⟩ | ⟨-, i, hf, hx⟩⟩
    · exact h'
    · exact h'.exec hf hx
  · exact s.afterTurn.hardReset_inv
  · exact h'.congr rfl

/-- Settles O48: the invariant holds at reset and every step keeps it. -/
theorem tableStaysPermutation : Obligations.TableStaysPermutation := by
  intro b ops turns t hreach
  exact (hreach.induct (P := State.Inv) stepKeepsInvariant (invariantHoldsAtReset b ops turns)).livePermutation

end Sys2Proof.Machine
end

section
/-! PROOFS. The register block (10_state.md R33 to R41): what each register reads, which writes are ignored, and what no
register shows. -/

namespace Sys2Proof.Machine

/-! ### Reads, register by register -/

section Reads

variable (s : State)

@[simp] theorem State.regRead_cmd : s.regRead 0x000 = 0 := rfl
@[simp] theorem State.regRead_status : s.regRead 0x004 = s.statusWord := rfl
@[simp] theorem State.regRead_result : s.regRead 0x00C = if s.busy then 0 else s.result := rfl
@[simp] theorem State.regRead_cur0 : s.regRead 0x010 = if s.visible then s.cipher.cur0 else 0 := rfl
@[simp] theorem State.regRead_cur1 : s.regRead 0x014 = if s.visible then s.cipher.cur1 else 0 := rfl
@[simp] theorem State.regRead_caps : s.regRead 0x018 = capsWord s.build := rfl

/-- The unmapped offsets between CAPS and TABLE read 0 (R41). -/
theorem State.regRead_unmapped {off : Nat} (hlo : 0x01C ≤ off) (hhi : off ≤ 0x0FC) : s.regRead off = 0 := by
  unfold State.regRead offCmd offStatus offArg offResult offCur0 offCur1 offCaps offTable
  rw [if_neg (by omega), if_neg (by omega), if_neg (by omega), if_neg (by omega), if_neg (by omega), if_neg (by omega),
    if_neg (by omega), if_pos (by omega)]

/-- A word of the TABLE window (R40). -/
theorem State.regRead_table (m : Nat) :
    s.regRead (0x100 + 4 * m) = if s.visible then s.cipher.tableWord m else 0 := by
  unfold State.regRead offCmd offStatus offArg offResult offCur0 offCur1 offCaps offTable
  rw [if_neg (by omega), if_neg (by omega), if_neg (by omega), if_neg (by omega), if_neg (by omega), if_neg (by omega),
    if_neg (by omega), if_neg (by omega), show (0x100 + 4 * m - 0x100) / 4 = m by omega]

/-- The Cipher State is visible with readback on an idle device (R37, R38, R40). -/
theorem State.visible_of_readback (hr : s.build.readback = true) (hb : s.busy = false) : s.visible = true := by
  simp [State.visible, hr, hb]

/-- Without readback, or on a busy device, it is not. -/
theorem State.not_visible (h : s.build.readback = false ∨ s.busy = true) : s.visible = false := by
  rcases h with h | h <;> simp [State.visible, h]

/-- STATUS, bit by bit (R34). -/
theorem State.statusWord_getLsbD (n : Nat) : s.statusWord.getLsbD n =
    (s.busy && decide (n = 0) || s.valid && decide (n = 1) || s.errIllegal && decide (n = 8) ||
      s.errBusy && decide (n = 9) || s.errInvalid && decide (n = 10)) := by
  simp only [State.statusWord, BitVec.getLsbD_or, flagBit_getLsbD _ (show 0 < 32 by decide),
    flagBit_getLsbD _ (show 1 < 32 by decide), flagBit_getLsbD _ (show 8 < 32 by decide),
    flagBit_getLsbD _ (show 9 < 32 by decide), flagBit_getLsbD _ (show 10 < 32 by decide)]

end Reads

/-- Byte `n` of a packed word is the byte packed there (20_memory.md R52). -/
theorem packLE_bytes (b0 b1 b2 b3 : Byte) :
    (packLE b0 b1 b2 b3).extractLsb' 0 8 = b0 ∧ (packLE b0 b1 b2 b3).extractLsb' 8 8 = b1 ∧
      (packLE b0 b1 b2 b3).extractLsb' 16 8 = b2 ∧ (packLE b0 b1 b2 b3).extractLsb' 24 8 = b3 := by
  have h0 := b0.isLt
  have h1 := b1.isLt
  have h2 := b2.isLt
  have h3 := b3.isLt
  refine ⟨?_, ?_, ?_, ?_⟩ <;> apply BitVec.eq_of_toNat_eq <;>
    simp only [BitVec.extractLsb'_toNat, packLE_toNat, Nat.shiftRight_eq_div_pow] <;> omega

/-- A word packed from two bytes and two zeros is 0 in bits 31:16. -/
theorem packLE_zero_upper (b0 b1 : Byte) : (packLE b0 b1 0 0).extractLsb' 16 16 = 0 := by
  have h0 := b0.isLt
  have h1 := b1.isLt
  have zero8 : (0 : Byte).toNat = 0 := rfl
  have zero16 : (0 : BitVec 16).toNat = 0 := rfl
  apply BitVec.eq_of_toNat_eq
  simp only [BitVec.extractLsb'_toNat, packLE_toNat, Nat.shiftRight_eq_div_pow, zero8, zero16]
  omega

/-! ### Writes -/

/-- A scheduled Host write to a read-only or unmapped offset completes and changes nothing of the device (R36 to R41). -/
theorem State.HostMoves.step_write_ignored {s : State} {off : Nat} {v : Word} {rest : List HostOp} {later : List Turn}
    (h : s.HostMoves (.write .word off v) rest later) (hlo : 0x008 < off) (hhi : off < 0x200) (h4 : off % 4 = 0) :
    step s = .next { s with program := rest, schedule := later } := by
  rw [h.step_write hhi h4, State.regWrite_ignored _ hlo]
  rfl

/-- Settles O7: the flags stand at their bits of the STATUS word, and a STATUS write clears the errors whose bits it
sets. -/
theorem statusRegister : Obligations.StatusRegister := by
  refine ⟨fun s n => ?_, fun s v rest later h => ?_⟩
  · rw [State.regRead_status, State.statusWord_getLsbD]
    split_ifs <;> simp_all
  · have cleared : ∀ flag bit : Bool, (flag && !bit) = if bit then false else flag := by decide
    exact ⟨((s.dropTurn later).clearErrors v).hostDone rest, h.step_write (by decide) (by decide), cleared _ _,
      cleared _ _, cleared _ _, rfl⟩

/-- Settles O8: the read is the register's equation, and 0x00C is an offset whose writes are ignored. -/
theorem resultRegister : Obligations.ResultRegister := by
  intro s
  refine ⟨fun hb => ?_, fun hb => ?_, fun v rest later h => ?_⟩
  · simp [hb]
  · simp [hb]
  · exact h.step_write_ignored (by decide) (by decide) (by decide)

/-- Settles O9: the two cursor registers are packed words of an idle device with readback. -/
theorem cursorRegisters : Obligations.CursorRegisters := by
  intro s
  refine ⟨fun hr hb => ?_, fun h => ?_, fun off v rest later hoff h => ?_⟩
  · rw [State.regRead_cur0, State.regRead_cur1, s.visible_of_readback hr hb, if_pos rfl, if_pos rfl]
    obtain ⟨hi, hj, hk, hz⟩ := packLE_bytes s.cipher.i s.cipher.j s.cipher.k s.cipher.z
    obtain ⟨ha, hw, -, -⟩ := packLE_bytes s.cipher.a s.cipher.w 0 0
    exact ⟨hi, hj, hk, hz, ha, hw, packLE_zero_upper _ _⟩
  · simp [s.not_visible h]
  · rcases hoff with rfl | rfl <;> exact h.step_write_ignored (by decide) (by decide) (by decide)

/-- Settles O10: every word of the window is a packed word of its four slots. -/
theorem tableWindow : Obligations.TableWindow := by
  intro s m hm
  refine ⟨fun hr hb n hn => ?_, fun h => ?_, fun v rest later h => ?_⟩
  · rw [State.regRead_table, s.visible_of_readback hr hb, if_pos rfl]
    obtain ⟨h0, h1, h2, h3⟩ := packLE_bytes (s.cipher.t (BitVec.ofNat 8 (4 * m)))
      (s.cipher.t (BitVec.ofNat 8 (4 * m + 1))) (s.cipher.t (BitVec.ofNat 8 (4 * m + 2)))
      (s.cipher.t (BitVec.ofNat 8 (4 * m + 3)))
    match n, hn with
    | 0, _ => exact h0
    | 1, _ => exact h1
    | 2, _ => exact h2
    | 3, _ => exact h3
  · rw [State.regRead_table, s.not_visible h, if_neg Bool.false_ne_true]
  · exact h.step_write_ignored (by omega) (by omega) (by omega)

/-- CAPS is the sum of its two flags (R39). -/
theorem capsWord_eq_add (b : Build) :
    capsWord b = (if b.primitives then 1 else 0) + (if b.readback then 2 else 0) := by
  unfold capsWord
  cases b.primitives <;> cases b.readback <;> decide

/-- Settles O11: each of these registers has an equation, and writes from 0x018 up are ignored. -/
theorem fixedRegisters : Obligations.FixedRegisters := by
  intro s
  refine ⟨s.regRead_cmd, ?_, fun off hlo hhi => s.regRead_unmapped hlo hhi, fun off v rest later hlo hhi h4 h => ?_⟩
  · rw [State.regRead_caps, capsWord_eq_add]
  · exact h.step_write_ignored (by omega) (by omega) h4

/-! ### What no register shows -/

/-- A register read depends on E only while it is visible, on RESULT only at the RESULT register of an idle device, and on
LATCH and the working copy never (R43, R57). -/
theorem State.regRead_hidden (s : State) (off : Nat) (c : Cipher) (r : Word) (d : Option Cipher) (l : Option Latch)
    (hc : s.visible = true → c = s.cipher) (hr : off = 0x00C → s.busy = false → r = s.result) :
    s.regRead off = State.regRead { s with cipher := c, result := r, draw := d, latch := l } off := by
  have hresult : off = offResult → (if s.busy then 0 else s.result) = if s.busy then 0 else r := by
    intro ho
    cases hb : s.busy with
    | true => rfl
    | false => rw [hr ho hb]
  have hcipher : ∀ f : Cipher → Word, (if s.visible then f s.cipher else 0) = if s.visible then f c else 0 := by
    intro f
    cases hv : s.visible with
    | true => rw [hc hv]
    | false => rfl
  have hvisible : State.visible { s with cipher := c, result := r, draw := d, latch := l } = s.visible := rfl
  have hstatus : State.statusWord { s with cipher := c, result := r, draw := d, latch := l } = s.statusWord := rfl
  unfold State.regRead
  rw [hvisible, hstatus, hcipher Cipher.cur0, hcipher Cipher.cur1, hcipher (·.tableWord ((off - offTable) / 4))]
  by_cases ho : off = offResult
  · simp only [hresult ho]
  · simp only [if_neg ho]

/-- Settles O14: the two states differ in hidden items only, and a read depends on those as far as they are visible. -/
theorem hiddenStateIsNotReadable : Obligations.HiddenStateIsNotReadable := by
  intro s t off ht
  refine ⟨fun hb => ?_, fun hr hoff => ?_, fun hc hres => ?_⟩
  · rw [ht]
    refine s.regRead_hidden off _ _ _ _ (fun hv => ?_) (fun _ hidle => ?_)
    · cases (s.not_visible (.inr hb)).symm.trans hv
    · cases hb.symm.trans hidle
  · rw [ht]
    refine s.regRead_hidden off _ _ _ _ (fun hv => ?_) (fun hat _ => absurd hat hoff)
    cases (s.not_visible (.inl hr)).symm.trans hv
  · rw [ht]
    exact s.regRead_hidden off _ _ _ _ (fun _ => hc) (fun _ _ => hres)

end Sys2Proof.Machine
end

section
/-! PROOFS. Which step changes which item of the state: the error flags, VALID, BUSY, RESULT and ARG (10_state.md R27 to
R31), hardware reset (R44), and what a command depends on (R43). -/

namespace Sys2Proof.Machine

/-! ### Error flags -/

/-- The sticky flag of an error (R31). -/
def State.errorFlag (s : State) : Err → Bool
  | .illegal => s.errIllegal
  | .busy => s.errBusy
  | .invalid => s.errInvalid

/-- The STATUS bit of an error (R34). -/
def Err.statusBit : Err → Nat
  | .illegal => 8
  | .busy => 9
  | .invalid => 10

/-- Raising an error sets its own flag only (60_exceptions.md R224). -/
@[simp] theorem State.raise_errorFlag (s : State) (e' e : Err) :
    (s.raise e').errorFlag e = (s.errorFlag e || decide (e' = e)) := by
  cases e
  · exact s.raise_errIllegal e'
  · exact s.raise_errBusy e'
  · exact s.raise_errInvalid e'

/-- A STATUS write clears the flags whose bits are 1 (R34). -/
theorem State.clearErrors_errorFlag (s : State) (v : Word) (e : Err) :
    (s.clearErrors v).errorFlag e = (s.errorFlag e && !v.getLsbD e.statusBit) := by
  cases e <;> rfl

/-- The Host's next access is a write of 1 to the STATUS bit of an error (R34). -/
def State.HostClears (s : State) (e : Err) : Prop :=
  ∃ v rest, s.program = .write .word 0x004 v :: rest ∧ v.getLsbD e.statusBit = true

/-- The Host's next access is one that may raise an error: a write of CMD or, for E_BUSY, of ARG (60_exceptions.md R222,
R223). -/
def State.HostMayRaise (s : State) (e : Err) : Prop :=
  ∃ v rest, s.program = .write .word 0x000 v :: rest ∨ (e = .busy ∧ s.program = .write .word 0x008 v :: rest)

/-- A Host turn keeps an error flag, clears it by a STATUS write, or raises it by a write of CMD or ARG. -/
theorem State.HostEffect.errorFlag_cases {s t : State} (h : s.HostEffect t) (e : Err) :
    t.errorFlag e = s.errorFlag e ∨ (t.errorFlag e = false ∧ s.HostClears e) ∨
      (t.errorFlag e = true ∧ s.HostMayRaise e) := by
  have done : ∀ (u : State) rest, (u.hostDone rest).errorFlag e = u.errorFlag e := by
    intro u rest
    cases e <;> rfl
  cases h with
  | quiet => exact .inl (by cases e <;> rfl)
  | cmdLatched => exact .inl (by cases e <;> rfl)
  | argWritten => exact .inl (by cases e <;> rfl)
  | cmdDropped e' w rest hp =>
    rw [done, State.raise_errorFlag]
    by_cases he : e' = e
    · exact .inr (.inr ⟨by simp [he], w, rest, .inl hp⟩)
    · exact .inl (by simp [he])
  | argDropped v rest hp =>
    rw [done, State.raise_errorFlag]
    by_cases he : Err.busy = e
    · exact .inr (.inr ⟨by simp [he], v, rest, .inr ⟨he.symm, hp⟩⟩)
    · exact .inl (by simp [he])
  | statusWritten v rest hp =>
    rw [done, State.clearErrors_errorFlag]
    cases hv : v.getLsbD e.statusBit with
    | true => exact .inr (.inl ⟨by simp, v, rest, hp, hv⟩)
    | false => exact .inl (by simp)

/-- No command touches an error flag (R31). -/
theorem exec_errorFlag {i : Instr} {s t : State} (h : exec i s = .next t) (e : Err) :
    t.errorFlag e = s.errorFlag e := by
  rcases exec_cases h with ⟨-, c, rfl⟩ | ⟨-, -, -, c, r, rfl⟩ | ⟨-, rfl⟩ | ⟨-, rfl⟩ | ⟨-, l, -, -, -, rfl⟩ <;>
    cases e <;> rfl

/-- A step keeps an error flag, clears it by hardware reset or a STATUS write, or raises it by a write of CMD or ARG
(R31). -/
theorem step_errorFlag_cases {s t : State} (h : step s = .next t) (e : Err) :
    t.errorFlag e = s.errorFlag e ∨
    (t.errorFlag e = false ∧ (s.mover = .hardReset ∨ (s.mover = .host ∧ s.HostClears e))) ∨
    (t.errorFlag e = true ∧ s.mover = .host ∧ s.HostMayRaise e) := by
  have hafter : s.afterTurn.errorFlag e = s.errorFlag e := by cases e <;> rfl
  rcases step_cases h with ⟨hm, hturn⟩ | ⟨-, hturn⟩ | ⟨hm, rfl⟩ | ⟨-, rfl⟩
  · rcases (State.hostTurn_effect hturn).errorFlag_cases e with heq | ⟨ht, hclear⟩ | ⟨ht, hraise⟩
    · exact .inl (heq.trans hafter)
    · exact .inr (.inl ⟨ht, .inr ⟨hm, hclear⟩⟩)
    · exact .inr (.inr ⟨ht, hm, hraise⟩)
  · rcases State.engineTurn_cases hturn with ⟨-, ⟨-, rfl⟩ | ⟨-, i, -, hx⟩⟩
    · exact .inl hafter
    · exact .inl ((exec_errorFlag hx e).trans hafter)
  · exact .inr (.inl ⟨by cases e <;> rfl, .inl hm⟩)
  · exact .inl (by cases e <;> rfl)

/-- Settles O49: every flag of the statement is the flag of an error, and a step has one of three effects on it. -/
theorem errorFlagsAreSticky : Obligations.ErrorFlagsAreSticky := by
  intro s t h old new bit hflag
  obtain ⟨e, hold, hnew, rfl⟩ : ∃ e : Err, s.errorFlag e = old ∧ t.errorFlag e = new ∧ e.statusBit = bit := by
    simp only [Prod.mk.injEq] at hflag
    rcases hflag with ⟨rfl, rfl, rfl⟩ | ⟨rfl, rfl, rfl⟩ | ⟨rfl, rfl, rfl⟩
    · exact ⟨.illegal, rfl, rfl, rfl⟩
    · exact ⟨.busy, rfl, rfl, rfl⟩
    · exact ⟨.invalid, rfl, rfl, rfl⟩
  subst hold hnew
  rcases step_errorFlag_cases h e with heq | ⟨ht, hcause⟩ | ⟨ht, hm, v, rest, hp⟩
  · rw [heq]
    exact ⟨fun hs hs' => (by cases hs.symm.trans hs'), fun hs hs' => (by cases hs.symm.trans hs')⟩
  · exact ⟨fun _ _ => hcause, fun _ ht' => (by cases ht.symm.trans ht')⟩
  · refine ⟨fun _ ht' => (by cases ht.symm.trans ht'), fun _ _ => ⟨hm, v, rest, hp.imp_right ?_⟩⟩
    exact And.imp_left (congrArg Err.statusBit)

/-! ### VALID and BUSY -/

/-- A step keeps VALID, or it is hardware reset or INIT, which set it, or WIPE, which clears it (R27). -/
theorem step_valid_cases {s t : State} (h : step s = .next t) :
    t.valid = s.valid ∨
    (t.valid = true ∧ (s.mover = .hardReset ∨ (s.mover = .engine ∧ s.fetch = some .init))) ∨
    (t.valid = false ∧ s.mover = .engine ∧ s.fetch = some .wipe) := by
  rcases step_cases h with ⟨-, hturn⟩ | ⟨hm, hturn⟩ | ⟨hm, rfl⟩ | ⟨-, rfl⟩
  · exact .inl (State.hostTurn_effect hturn).valid_eq
  · rcases State.engineTurn_cases hturn with ⟨-, ⟨-, rfl⟩ | ⟨-, i, hf, hx⟩⟩
    · exact .inl rfl
    · rcases exec_valid hx with hv | ⟨rfl, hv⟩ | ⟨rfl, hv⟩
      · exact .inl hv
      · exact .inr (.inl ⟨hv, .inr ⟨hm, hf⟩⟩)
      · exact .inr (.inr ⟨hv, hm, hf⟩)
  · exact .inr (.inl ⟨rfl, .inl hm⟩)
  · exact .inl rfl

/-- VALID rises only by hardware reset or the Engine running INIT (R27). -/
theorem step_valid_rises {s t : State} (h : step s = .next t) (hs : s.valid = false) (ht : t.valid = true) :
    s.mover = .hardReset ∨ (s.mover = .engine ∧ s.fetch = some .init) := by
  rcases step_valid_cases h with heq | ⟨-, hcause⟩ | ⟨hf, -⟩
  · cases hs.symm.trans (heq.symm.trans ht)
  · exact hcause
  · cases hf.symm.trans ht

/-- VALID falls only by the Engine running WIPE (R27). -/
theorem step_valid_falls {s t : State} (h : step s = .next t) (hs : s.valid = true) (ht : t.valid = false) :
    s.mover = .engine ∧ s.fetch = some .wipe := by
  rcases step_valid_cases h with heq | ⟨ht', -⟩ | ⟨-, hcause⟩
  · cases hs.symm.trans (heq.symm.trans ht)
  · cases ht'.symm.trans ht
  · exact hcause

/-- BUSY rises only at an accepted CMD write (R28, R34). -/
theorem step_busy_rises {s t : State} (h : step s = .next t) (hs : s.busy = false) (ht : t.busy = true) :
    s.mover = .host ∧ ∃ w rest i, s.program = .write .word 0x000 w :: rest ∧
      decode s.build.primitives w = .cmd i ∧ t.fetch = some i := by
  rcases step_cases h with ⟨hm, hturn⟩ | ⟨-, hturn⟩ | ⟨-, rfl⟩ | ⟨-, rfl⟩
  · rcases (State.hostTurn_effect hturn).busy_cases with heq | ⟨-, -, haccepted⟩
    · cases hs.symm.trans (heq.symm.trans ht)
    · exact ⟨hm, haccepted⟩
  · rcases State.engineTurn_cases hturn with ⟨-, ⟨-, rfl⟩ | ⟨hbusy, -⟩⟩
    · cases hs.symm.trans ht
    · cases hs.symm.trans hbusy
  · cases ht
  · cases hs.symm.trans ht

/-- BUSY falls only by hardware reset or in the Engine's turn (R28). -/
theorem step_busy_falls {s t : State} (h : step s = .next t) (hs : s.busy = true) (ht : t.busy = false) :
    s.mover = .hardReset ∨ s.mover = .engine := by
  rcases step_cases h with ⟨-, hturn⟩ | ⟨hm, -⟩ | ⟨hm, -⟩ | ⟨-, rfl⟩
  · rcases (State.hostTurn_effect hturn).busy_cases with heq | ⟨hidle, -⟩
    · cases ht.symm.trans (heq.trans hs)
    · cases hidle.symm.trans hs
  · exact .inr hm
  · exact .inl hm
  · cases ht.symm.trans hs

/-- Settles O50, one change at a time. -/
theorem validAndBusyChangeOnlyByRule : Obligations.ValidAndBusyChangeOnlyByRule :=
  fun _ _ h => ⟨step_valid_rises h, step_valid_falls h, step_busy_rises h, step_busy_falls h⟩

/-! ### RESULT and ARG -/

/-- The commands that write RESULT, listed (R30). -/
theorem writesResult_iff {i : Instr} : writesResult i = true ↔
    i = .drip ∨ (∃ b, i = .crypt b) ∨ i = .output ∨ i = .random32 ∨ i = .uniform ∨ i = .init ∨ i = .wipe := by
  cases i <;> simp [writesResult]

/-- A step other than hardware reset keeps RESULT, or the Engine runs a command that writes it (R30). -/
theorem step_result_cases {s t : State} (h : step s = .next t) (hm : s.mover ≠ .hardReset) :
    t.result = s.result ∨
    (s.mover = .engine ∧ ∃ i, s.fetch = some i ∧ writesResult i = true ∧ exec i s.afterTurn = .next t) := by
  rcases step_cases h with ⟨-, hturn⟩ | ⟨hengine, hturn⟩ | ⟨hreset, -⟩ | ⟨-, rfl⟩
  · exact .inl (State.hostTurn_effect hturn).result_eq
  · rcases State.engineTurn_cases hturn with ⟨-, ⟨-, rfl⟩ | ⟨-, i, hf, hx⟩⟩
    · exact .inl rfl
    · cases hw : writesResult i with
      | false => exact .inl ((exec_result_of_not_writesResult hx hw).trans s.afterTurn_result)
      | true => exact .inr ⟨hengine, i, hf, hw, hx⟩
  · exact absurd hreset hm
  · exact .inl rfl

/-- A step other than hardware reset keeps ARG, or the Engine runs WIPE, or an idle device takes an ARG write (R29). -/
theorem step_arg_cases {s t : State} (h : step s = .next t) (hm : s.mover ≠ .hardReset) :
    t.arg = s.arg ∨ (s.mover = .engine ∧ s.fetch = some .wipe) ∨
    (s.mover = .host ∧ s.busy = false ∧ ∃ v rest, s.program = .write .word 0x008 v :: rest ∧ t.arg = v) := by
  rcases step_cases h with ⟨hhost, hturn⟩ | ⟨hengine, hturn⟩ | ⟨hreset, -⟩ | ⟨-, rfl⟩
  · exact (State.hostTurn_effect hturn).arg_cases.imp_right fun hwritten => .inr ⟨hhost, hwritten⟩
  · rcases State.engineTurn_cases hturn with ⟨-, ⟨-, rfl⟩ | ⟨-, i, hf, hx⟩⟩
    · exact .inl rfl
    · rcases exec_arg hx with heq | rfl
      · exact .inl heq
      · exact .inr (.inl ⟨hengine, hf⟩)
  · exact absurd hreset hm
  · exact .inl rfl

/-- Settles O52, from what a step does to each of the two registers. -/
theorem resultAndArgWriters : Obligations.ResultAndArgWriters := by
  intro s t h hm
  refine ⟨fun hne => ?_, (step_arg_cases h hm).resolve_left⟩
  obtain ⟨hengine, i, hf, hw, -⟩ := (step_result_cases h hm).resolve_left hne
  exact ⟨hengine, i, hf, writesResult_iff.mp hw⟩

/-! ### A wiped device -/

/-- A command that a wiped device runs leaves RESULT or makes it 0 (R27, R180, R211). -/
theorem exec_result_of_legalWhileWiped {i : Instr} {s t : State} (h : exec i s = .next t)
    (hi : legalWhileWiped i = true) : t.result = s.result ∨ t.result = 0 := by
  cases i with
  | nop => exact .inl (exec_result_of_not_writesResult h rfl)
  | init => exact .inr (Host.Outcome.next.inj h ▸ rfl)
  | wipe => exact .inr (Host.Outcome.next.inj h ▸ rfl)
  | absorb | absorbStop | flush | final | drip | random32 | crypt | uniform | update | whip | crush | shuffle
  | absorbNibble | output => cases hi

/-- Settles O42: by the invariant the command that a wiped device has latched is NOP, INIT or WIPE. -/
theorem wipedStateYieldsNothing : Obligations.WipedStateYieldsNothing := by
  intro s t hinv hwiped h
  refine ⟨step_valid_rises h hwiped, ?_⟩
  by_cases hm : s.mover = .hardReset
  · rw [step_eq, hm] at h
    exact .inr (Host.Outcome.next.inj h ▸ rfl)
  · rcases step_result_cases h hm with heq | ⟨-, i, hf, -, hx⟩
    · exact .inl heq
    · have hlegal : legalWhileWiped i = true := (hinv.fetch_legal hf).resolve_left (by simp [hwiped])
      rw [← s.afterTurn_result]
      exact exec_result_of_legalWhileWiped hx hlegal

/-! ### Hardware reset -/

/-- Settles O44: hardware reset answers the reset values, and its Cipher State is the one INIT writes. -/
theorem hardwareResetSetsEveryItem : Obligations.HardwareResetSetsEveryItem := by
  intro s later hs
  have hstep : step s = .next (s.dropTurn later).hardReset := by
    rw [step, State.nextTurn, hs]
    rfl
  exact ⟨_, hstep, Cipher.t_reset, rfl, rfl, rfl, rfl, rfl, rfl, rfl, rfl, rfl, rfl, rfl, rfl, rfl, rfl, rfl, rfl, rfl,
    rfl, rfl, rfl, _, rfl, rfl⟩

/-! ### What a command depends on -/

/-- An effect touches RESULT exactly as the command it comes from does (R30). -/
def Effect.AgreesWith (i : Instr) : Effect → Prop
  | .done _ => writesResult i = false
  | .doneResult _ _ | .init | .wipe | .redraw _ | .stuck => writesResult i = true

/-- The effect of every command does. -/
theorem effectOf_agreesWith (e : Cipher) (l : Option Latch) (d : Option Cipher) (i : Instr) :
    (effectOf e l d i).AgreesWith i := by
  cases i with
  | uniform =>
    cases l with
    | none => rfl
    | some l =>
      simp only [effectOf, uniformEffect]
      split_ifs <;> rfl
  | nop | init | absorb | absorbStop | flush | final | drip | random32 | crypt | wipe | update | whip | crush | shuffle
  | absorbNibble | output => rfl

/-- One effect on two busy devices: the same Cipher State, BUSY and working copy, and the same RESULT if the command
writes it. -/
theorem Effect.apply_agree {i : Instr} {f : Effect} {s s' t : State} (hi : f.AgreesWith i) (hb : s.busy = true)
    (hb' : s'.busy = true) (hc : s'.cipher = s.cipher) (h : f.apply s = .next t) :
    ∃ t', f.apply s' = .next t' ∧ t'.cipher = t.cipher ∧ t'.busy = t.busy ∧ t'.draw = t.draw ∧
      (t.busy = false ∧ writesResult i = true → t'.result = t.result) ∧
      (t.busy = true ∨ writesResult i = false → t'.result = s'.result ∧ t.result = s.result) := by
  cases f with
  | done c =>
    obtain rfl := Host.Outcome.next.inj h
    exact ⟨_, rfl, rfl, rfl, rfl, fun ⟨_, hw⟩ => (by cases hi.symm.trans hw), fun _ => ⟨rfl, rfl⟩⟩
  | doneResult | init | wipe =>
    obtain rfl := Host.Outcome.next.inj h
    exact ⟨_, rfl, rfl, rfl, rfl, fun _ => rfl, fun hw => by cases hi.symm.trans (hw.resolve_left Bool.false_ne_true)⟩
  | redraw c =>
    obtain rfl := Host.Outcome.next.inj h
    exact ⟨_, rfl, hc, hb'.trans hb.symm, rfl, fun ⟨hidle, _⟩ => (by cases hb.symm.trans hidle), fun _ => ⟨rfl, rfl⟩⟩
  | stuck => cases h

/-- Settles O53: a command is an effect computed from E, LATCH and the working copy alone. -/
theorem commandIsFunctionOfEngineState : Obligations.CommandIsFunctionOfEngineState := by
  intro i s s' t hc hl hd hb hb' h
  rw [exec_eq_effect] at h ⊢
  rw [← hc, ← hl, ← hd]
  exact Effect.apply_agree (effectOf_agreesWith _ _ _ _) hb hb' hc.symm h

end Sys2Proof.Machine
end

section
/-! PROOFS. The Host's accesses to the register block (20_memory.md R53, R55; 10_state.md R41), and when the effect of a
command appears (20_memory.md R58). -/

namespace Sys2Proof.Machine

/-! ### Reads -/

/-- No register shows what the Host has still to do, what it has read or who moves next. -/
theorem State.regRead_hostItems (s : State) (ops : List HostOp) (vs : List Word) (turns : List Turn) (off : Nat) :
    State.regRead { s with program := ops, reads := vs, schedule := turns } off = s.regRead off := rfl

/-- Settles O12: the read is the step, and it moves items that no register shows. -/
theorem readsHaveNoSideEffect : Obligations.ReadsHaveNoSideEffect :=
  fun s _ rest later hoff h4 h => ⟨_, h.step_read hoff h4, rfl, s.regRead_hostItems rest _ later⟩

/-! ### Accesses, sorted by width and offset -/

/-- An offset from 0x200 up is outside the block, whatever the width (R41). -/
theorem checkAccess_outside (w : Width) {off : Nat} (h : 0x200 ≤ off) : checkAccess w off = .outside :=
  if_pos h

/-- Inside the block, an access that is no word or is not aligned is no word access (R53). -/
theorem checkAccess_notWord {w : Width} {off : Nat} (h : off < 0x200) (hw : w ≠ .word ∨ off % 4 ≠ 0) :
    checkAccess w off = .notWord := by
  have hbad : ¬ (w = .word ∧ off % 4 = 0) := fun ⟨hword, h4⟩ => hw.elim (· hword) (· h4)
  rw [checkAccess, offEnd, if_neg (Nat.not_le.mpr h), if_neg hbad]

/-- A scheduled access, a read or a write, stops where its check says so: with a fault outside the block, with a refusal
where it is no aligned word. -/
theorem State.HostMoves.step_stops {s : State} {w : Width} {off : Nat} {op : HostOp} {rest : List HostOp}
    {later : List Turn} (h : s.HostMoves op rest later) (hop : op = .read w off ∨ ∃ v, op = .write w off v) :
    (checkAccess w off = .outside → step s = .fault .outsideRegisterSpace) ∧
    (checkAccess w off = .notWord → step s = .refused .notAlignedWord) := by
  rw [h.step_eq, State.hostTurn, State.dropTurn_program, h.program]
  rcases hop with rfl | ⟨v, rfl⟩ <;>
    exact ⟨fun hc => by simp [h.resetDone, hc], fun hc => by simp [h.resetDone, hc]⟩

/-- Settles O13: the access check sorts an access, and a read and a write both stop as it says. -/
theorem accessesOutsideInterface : Obligations.AccessesOutsideInterface := by
  intro s w off op rest later hop h
  obtain ⟨faults, refuses⟩ := h.step_stops hop
  refine ⟨fun hoff => ?_, fun hoff hw => ?_, fun hoff hw h4 => ?_⟩
  · exact faults (checkAccess_outside w hoff)
  · exact refuses (checkAccess_notWord hoff hw)
  · subst hw
    rcases hop with rfl | ⟨v, rfl⟩
    · exact ⟨_, h.step_read hoff h4⟩
    · exact ⟨_, h.step_write hoff h4⟩

/-! ### When the effect of a command appears -/

/-- No Host turn changes the Cipher State. -/
theorem State.HostEffect.cipher_eq {s t : State} (h : s.HostEffect t) : t.cipher = s.cipher := by cases h <;> simp

/-- No Host turn changes the LATCH of a busy device (R28). -/
theorem State.HostEffect.latch_of_busy {s t : State} (h : s.HostEffect t) (hb : s.busy = true) :
    t.latch = s.latch := by
  cases h with
  | cmdLatched i w rest hp idle => cases idle.symm.trans hb
  | quiet => rfl
  | cmdDropped e => exact s.raise_latch e
  | statusWritten => rfl
  | argDropped => rfl
  | argWritten => rfl

/-- No Host turn changes the ARG of a busy device (R35). -/
theorem State.HostEffect.arg_of_busy {s t : State} (h : s.HostEffect t) (hb : s.busy = true) : t.arg = s.arg :=
  h.arg_cases.resolve_right fun ⟨idle, _⟩ => by cases idle.symm.trans hb

/-- A command completes, or it changes the working copy only (R58, R172). -/
theorem exec_completes_or_redraws {i : Instr} {s t : State} (h : exec i s = .next t) :
    t.busy = false ∨ ∃ c, t = { s with draw := some c } := by
  rcases exec_cases h with ⟨-, c, rfl⟩ | ⟨-, -, -, c, r, rfl⟩ | ⟨-, rfl⟩ | ⟨-, rfl⟩ | ⟨-, l, -, -, -, rfl⟩
  · exact .inl rfl
  · exact .inl rfl
  · exact .inl rfl
  · exact .inl rfl
  · exact .inr ⟨_, rfl⟩

/-- A step other than hardware reset completes a command of the Engine, or it leaves the Cipher State, and on a busy
device VALID, RESULT, ARG and LATCH too (R58). -/
theorem step_completes_or_keeps {s t : State} (h : step s = .next t) (hm : s.mover ≠ .hardReset) :
    (s.mover = .engine ∧ s.busy = true ∧ t.busy = false) ∨
    (t.cipher = s.cipher ∧
      (s.busy = true → t.valid = s.valid ∧ t.result = s.result ∧ t.arg = s.arg ∧ t.latch = s.latch)) := by
  rcases step_cases h with ⟨-, hturn⟩ | ⟨hengine, hturn⟩ | ⟨hreset, -⟩ | ⟨-, rfl⟩
  · have e := State.hostTurn_effect hturn
    exact .inr ⟨e.cipher_eq, fun hb => ⟨e.valid_eq, e.result_eq, e.arg_of_busy hb, e.latch_of_busy hb⟩⟩
  · rcases State.engineTurn_cases hturn with ⟨-, ⟨-, rfl⟩ | ⟨hb, i, -, hx⟩⟩
    · exact .inr ⟨rfl, fun _ => ⟨rfl, rfl, rfl, rfl⟩⟩
    · rcases exec_completes_or_redraws hx with hdone | ⟨c, rfl⟩
      · exact .inl ⟨hengine, hb, hdone⟩
      · exact .inr ⟨rfl, fun _ => ⟨rfl, rfl, rfl, rfl⟩⟩
  · exact absurd hreset hm
  · exact .inr ⟨rfl, fun _ => ⟨rfl, rfl, rfl, rfl⟩⟩

/-- Settles O51: a step that does not complete a command keeps these items. -/
theorem effectsAppearAtCompletion : Obligations.EffectsAppearAtCompletion := by
  intro s t h hm
  rcases step_completes_or_keeps h hm with ⟨hengine, hbusy, hidle⟩ | ⟨hcipher, hkeep⟩
  · exact ⟨fun _ => ⟨hengine, hbusy, hidle⟩, fun _ hb => by cases hidle.symm.trans hb⟩
  · exact ⟨fun hne => absurd hcipher hne, fun hb _ => ⟨hcipher, hkeep hb⟩⟩

end Sys2Proof.Machine
end

section
/-! PROOFS. The command words (30_encoding.md R70 to R79): the decoder said once, as the inverse of the encoder and by
its illegal words, and the statements that follow. -/

namespace Sys2Proof

/-! ### The fields of a word -/

/-- The word of every command has the fields of the command. -/
theorem wordFields (i : Instr) : Laws.WordFields.Statement i :=
  Laws.WordFields.of_primitive (by cases i <;> rfl)

/-- The opcode as a number of the word (R70). -/
theorem opField_toNat (w : Word) : (opField w).toNat = w.toNat % 256 := by
  simp [opField]

/-- The immediate as a number of the word (R70). -/
theorem immField_toNat (w : Word) : (immField w).toNat = w.toNat / 256 % 256 := by
  simp [immField, Nat.shiftRight_eq_div_pow]

/-- The reserved field as a number of the word: there is nothing above it (R70). -/
theorem rsvField_toNat (w : Word) : (rsvField w).toNat = w.toNat / 65536 := by
  simp [rsvField, Nat.shiftRight_eq_div_pow]
  omega

/-- The three fields are the whole word (R70). -/
theorem word_eq_of_fields {w w' : Word} (hop : opField w = opField w') (himm : immField w = immField w')
    (hrsv : rsvField w = rsvField w') : w = w' := by
  have op := congrArg BitVec.toNat hop
  have imm := congrArg BitVec.toNat himm
  have rsv := congrArg BitVec.toNat hrsv
  rw [opField_toNat, opField_toNat] at op
  rw [immField_toNat, immField_toNat] at imm
  rw [rsvField_toNat, rsvField_toNat] at rsv
  apply BitVec.eq_of_toNat_eq
  omega

/-- A word is the word of a command exactly when it has the fields of that command (R74). -/
theorem encode_eq_iff {i : Instr} {w : Word} :
    encode i = w ↔ rsvField w = 0 ∧ opField w = i.opcode ∧ immField w = i.immediate := by
  obtain ⟨hop, himm, hrsv, -⟩ := wordFields i
  constructor
  · rintro rfl
    exact ⟨hrsv, hop, himm⟩
  · rintro ⟨hr, ho, hi⟩
    exact word_eq_of_fields (hop.trans ho.symm) (himm.trans hi.symm) (hrsv.trans hr.symm)

/-- A command is well formed exactly when its opcode is no primitive one or the build has primitives (R75). -/
theorem Instr.wellFormed_iff {p : Bool} {i : Instr} :
    i.wellFormed p = true ↔ (isPrimitiveOp i.opcode = true → p = true) := by
  obtain ⟨-, -, -, hprim⟩ := wordFields i
  rw [hprim, Instr.wellFormed]
  cases i.isPrimitive <;> simp

/-! ### The forms -/

/-- Form Z reads its command from the immediate 0 only (R71). -/
theorem decodeFormZ_eq_cmd {imm : Byte} {i j : Instr} : decodeFormZ imm j = .cmd i ↔ j = i ∧ imm = 0 := by
  unfold decodeFormZ
  split <;> simp_all

/-- Form Z refuses every other immediate (R71). -/
theorem decodeFormZ_eq_illegal {imm : Byte} {j : Instr} :
    (∃ why, decodeFormZ imm j = .illegal why) ↔ imm.toNat ≠ 0 := by
  have zero_iff : imm = 0 ↔ imm.toNat = 0 := BitVec.toNat_eq
  rw [Ne, ← zero_iff]
  unfold decodeFormZ
  split <;> simp_all

/-- Bits 7:4 of an immediate are 0 exactly when it is below 16. -/
theorem highNibble_eq_zero_iff {imm : Byte} : imm.extractLsb' 4 4 = 0 ↔ imm.toNat < 16 := by
  rw [BitVec.toNat_eq]
  simp [Nat.shiftRight_eq_div_pow]
  omega

/-- An immediate below 16 is its own low nibble, zero-extended. -/
theorem lowNibble_zeroExtend {imm : Byte} (h : imm.toNat < 16) : (imm.extractLsb' 0 4).zeroExtend 8 = imm := by
  apply BitVec.eq_of_toNat_eq
  simp
  omega

/-- The operand of form N is read back from the immediate it is written to (R72). -/
theorem decodeFormN_zeroExtend (n : Nibble) (mk : Nibble → Instr) : decodeFormN (n.zeroExtend 8) mk = .cmd (mk n) := by
  have low : (n.zeroExtend 8).extractLsb' 0 4 = n := BitVec.eq_of_toNat_eq (by simp; omega)
  have high : (n.zeroExtend 8).extractLsb' 4 4 = 0 := highNibble_eq_zero_iff.mpr (by simp; omega)
  rw [decodeFormN, if_pos high, low]

/-- Form N reads a command from the zero-extended operand only (R71, R72). -/
theorem decodeFormN_eq_cmd {imm : Byte} {mk : Nibble → Instr} {i : Instr} (h : decodeFormN imm mk = .cmd i) :
    ∃ n : Nibble, i = mk n ∧ imm = n.zeroExtend 8 := by
  unfold decodeFormN at h
  split at h
  case isTrue high =>
    exact ⟨_, (Decoded.cmd.inj h).symm, (lowNibble_zeroExtend (highNibble_eq_zero_iff.mp high)).symm⟩
  case isFalse => cases h

/-- Form N refuses the immediates that are no nibble (R71). -/
theorem decodeFormN_eq_illegal {imm : Byte} {mk : Nibble → Instr} :
    (∃ why, decodeFormN imm mk = .illegal why) ↔ 16 ≤ imm.toNat := by
  rw [← Nat.not_lt, ← highNibble_eq_zero_iff]
  unfold decodeFormN
  split <;> simp_all

/-! ### The opcode map -/

/-- What the opcode map answers, by the form of the opcode's row (R71, R74, R76). -/
theorem decodeOp_cases (op imm : Byte) :
    (∃ i : Instr, decodeOp op imm = decodeFormZ imm i ∧ op = i.opcode ∧ i.immediate = 0 ∧
      (op.toNat ≤ 0x09 ∨ 0x0F ≤ op.toNat ∧ op.toNat ≤ 0x15) ∧
      op.toNat ≠ 0x02 ∧ op.toNat ≠ 0x05 ∧ op.toNat ≠ 0x08 ∧ op.toNat ≠ 0x14) ∨
    (∃ i : Instr, decodeOp op imm = .cmd i ∧ op = i.opcode ∧ i.immediate = imm ∧
      (op.toNat = 0x02 ∨ op.toNat = 0x05 ∨ op.toNat = 0x08)) ∨
    (decodeOp op imm = decodeFormN imm .absorbNibble ∧ op.toNat = 0x14) ∨
    (decodeOp op imm = .illegal .reservedOpcode ∧ (0x0A ≤ op.toNat ∧ op.toNat ≤ 0x0E ∨ 0x16 ≤ op.toNat)) := by
  unfold decodeOp
  split
  case h_1 h | h_2 h | h_4 h | h_5 h | h_7 h | h_8 h | h_10 h | h_11 h | h_12 h | h_13 h | h_14 h | h_15 h | h_17 h =>
    exact .inl ⟨_, rfl, BitVec.eq_of_toNat_eq h, rfl, by omega⟩
  case h_3 h | h_6 h | h_9 h => exact .inr (.inl ⟨_, rfl, BitVec.eq_of_toNat_eq h, rfl, by omega⟩)
  case h_16 h => exact .inr (.inr (.inl ⟨rfl, h⟩))
  case h_18 => exact .inr (.inr (.inr ⟨rfl, by simp only [imp_false] at *; omega⟩))

/-- The opcode map reads back the fields of every command (R74). -/
theorem decodeOp_opcode_immediate (i : Instr) : decodeOp i.opcode i.immediate = .cmd i := by
  cases i
  case absorbNibble n => exact decodeFormN_zeroExtend n .absorbNibble
  all_goals rfl

/-- The opcode map answers a command exactly when it is given the fields of that command (R74, R78). -/
theorem decodeOp_eq_cmd_iff {op imm : Byte} {i : Instr} :
    decodeOp op imm = .cmd i ↔ op = i.opcode ∧ imm = i.immediate := by
  constructor
  · intro h
    rcases decodeOp_cases op imm with ⟨j, e, hop, hz, -⟩ | ⟨j, e, hop, hb, -⟩ | ⟨e, h14⟩ | ⟨e, -⟩ <;> rw [e] at h
    · obtain ⟨rfl, himm⟩ := decodeFormZ_eq_cmd.mp h
      exact ⟨hop, himm.trans hz.symm⟩
    · obtain rfl := Decoded.cmd.inj h
      exact ⟨hop, hb.symm⟩
    · obtain ⟨n, rfl, himm⟩ := decodeFormN_eq_cmd h
      exact ⟨BitVec.eq_of_toNat_eq h14, himm⟩
    · cases h
  · rintro ⟨rfl, rfl⟩
    exact decodeOp_opcode_immediate i

/-- Which opcodes and immediates the opcode map refuses (R71, R76). -/
theorem decodeOp_eq_illegal_iff {op imm : Byte} :
    (∃ why, decodeOp op imm = .illegal why) ↔
      (0x0A ≤ op.toNat ∧ op.toNat ≤ 0x0E) ∨ 0x16 ≤ op.toNat ∨
      (op.toNat ≠ 0x02 ∧ op.toNat ≠ 0x05 ∧ op.toNat ≠ 0x08 ∧ op.toNat ≠ 0x14 ∧ imm.toNat ≠ 0) ∨
      (op.toNat = 0x14 ∧ 16 ≤ imm.toNat) := by
  rcases decodeOp_cases op imm with ⟨j, e, -, -, hZ⟩ | ⟨j, e, -, -, hB⟩ | ⟨e, h14⟩ | ⟨e, hres⟩ <;> rw [e]
  · rw [decodeFormZ_eq_illegal]
    omega
  · exact iff_of_false (fun ⟨_, h⟩ => by cases h) (by omega)
  · rw [decodeFormN_eq_illegal]
    omega
  · exact iff_of_true ⟨_, rfl⟩ (by omega)

/-! ### The decoder -/

/-- The checks of R78 in their order: the reserved bits, the build, the opcode map. -/
theorem decode_cases (p : Bool) (w : Word) :
    (rsvField w ≠ 0 ∧ decode p w = .illegal .reservedBits) ∨
    (rsvField w = 0 ∧ isPrimitiveOp (opField w) = true ∧ p = false ∧ decode p w = .illegal .primitiveAbsent) ∨
    (rsvField w = 0 ∧ (isPrimitiveOp (opField w) = true → p = true) ∧
      decode p w = decodeOp (opField w) (immField w)) := by
  unfold decode
  split
  case isTrue hrsv => exact .inl ⟨hrsv, rfl⟩
  case isFalse hrsv =>
    have rsv0 := not_not.mp hrsv
    split
    case isTrue absent => exact .inr (.inl ⟨rsv0, by simpa using absent⟩)
    case isFalse present => exact .inr (.inr ⟨rsv0, by simpa using present, rfl⟩)

/-- A word spells what the opcode map answers when its reserved bits are 0 and the build has its opcode (R78). -/
theorem decode_eq_cmd_iff_fields {p : Bool} {w : Word} {i : Instr} :
    decode p w = .cmd i ↔ rsvField w = 0 ∧ (isPrimitiveOp (opField w) = true → p = true) ∧
      decodeOp (opField w) (immField w) = .cmd i := by
  rcases decode_cases p w with ⟨hrsv, e⟩ | ⟨-, hprim, rfl, e⟩ | ⟨hrsv, hprim, e⟩ <;> rw [e]
  · exact iff_of_false nofun fun h => hrsv h.1
  · exact iff_of_false nofun fun ⟨_, h, _⟩ => nomatch h hprim
  · exact ⟨fun h => ⟨hrsv, hprim, h⟩, fun ⟨_, _, h⟩ => h⟩

/-- A word is illegal by its reserved bits, by a primitive opcode the build lacks, or by the opcode map (R78). -/
theorem decode_eq_illegal_iff_fields {p : Bool} {w : Word} :
    (∃ why, decode p w = .illegal why) ↔ rsvField w ≠ 0 ∨ (isPrimitiveOp (opField w) = true ∧ p = false) ∨
      ∃ why, decodeOp (opField w) (immField w) = .illegal why := by
  rcases decode_cases p w with ⟨hrsv, e⟩ | ⟨-, hprim, hp, e⟩ | ⟨hrsv, hprim, e⟩ <;> rw [e]
  · exact iff_of_true ⟨_, rfl⟩ (.inl hrsv)
  · exact iff_of_true ⟨_, rfl⟩ (.inr (.inl ⟨hprim, hp⟩))
  · have hbuild : ¬ (isPrimitiveOp (opField w) = true ∧ p = false) := fun ⟨h, hp⟩ => nomatch hp.symm.trans (hprim h)
    simp only [hrsv, ne_eq, not_true_eq_false, hbuild, false_or]

/-- The decoder is the inverse of the encoder on the commands of a build: a word decodes to a command exactly when it is
the word of that command and the build has the command (R74, R75, R78, R79). -/
theorem decode_eq_cmd_iff {p : Bool} {w : Word} {i : Instr} :
    decode p w = .cmd i ↔ encode i = w ∧ i.wellFormed p = true := by
  rw [decode_eq_cmd_iff_fields, decodeOp_eq_cmd_iff, encode_eq_iff, Instr.wellFormed_iff]
  constructor
  · rintro ⟨hrsv, hprim, hop, himm⟩
    exact ⟨⟨hrsv, hop, himm⟩, hop ▸ hprim⟩
  · rintro ⟨⟨hrsv, hop, himm⟩, hprim⟩
    exact ⟨hrsv, hop ▸ hprim, hop, himm⟩

/-! ### The statements -/

/-- Settles O2: the word of a command is one that decodes to it. -/
theorem decodeInvertsEncode : Obligations.DecodeInvertsEncode :=
  fun _ _ hwf => decode_eq_cmd_iff.mpr ⟨rfl, hwf⟩

/-- Settles O3: both words are the word of the command. -/
theorem encodeInvertsDecode : Obligations.EncodeInvertsDecode := by
  intro p w i h
  obtain ⟨hw, hwf⟩ := decode_eq_cmd_iff.mp h
  refine ⟨hw, hwf, fun w' h' => ?_⟩
  obtain ⟨hw', -⟩ := decode_eq_cmd_iff.mp h'
  exact hw'.symm.trans hw

/-- Settles O4: the checks of the decoder and of the opcode map, in the numbers of the fields. -/
theorem illegalWordsExactly : Obligations.IllegalWordsExactly := by
  intro p w op imm rsv hop himm hrsv
  rw [← opField_toNat] at hop
  rw [← immField_toNat] at himm
  rw [← rsvField_toNat] at hrsv
  have hrsv0 : rsvField w ≠ 0 ↔ rsv ≠ 0 := by rw [hrsv, Ne, BitVec.toNat_eq]; rfl
  have hprim : isPrimitiveOp (opField w) = true ↔ 0x10 ≤ op ∧ op ≤ 0x15 := by rw [hop]; exact decide_eq_true_iff
  rw [decode_eq_illegal_iff_fields, decodeOp_eq_illegal_iff, hrsv0, hprim, ← hop, ← himm]
  cases p
  case false =>
    simp only [and_true]
    omega
  case true => simp only [reduceCtorEq, and_false, false_or]

/-- Settles O1: seventeen words of commands that are well formed on the reference build, and one illegal word for each
reason. -/
theorem opcodeTableWordsDecode : Obligations.OpcodeTableWordsDecode := by
  unfold Obligations.OpcodeTableWordsDecode
  decide

end Sys2Proof
end

section
/-! PROOFS. The permutation engine (40_engine.md): UPDATE slot by slot, WHIP as an iterate, CRUSH as the sorting of the
mirrored pairs, SHUFFLE as their composition, and the statements about the four commands. -/

namespace Sys2Proof.Machine

/-! ### Update and Whip -/

/-- The new j is read from the old table at the new i (R101). -/
theorem Cipher.update_j (c : Cipher) : c.update.j = c.t (c.t c.update.i + c.j) + c.k := rfl

/-- The new k is read from the old table at the new j (R101). -/
theorem Cipher.update_k (c : Cipher) : c.update.k = c.t c.update.j + c.k + c.update.i := rfl

/-- Update exchanges the slots at the new cursors i and j and leaves every other slot (R101). -/
theorem Cipher.t_update {c : Cipher} (h : c.table.wf = true) (x : Byte) :
    c.update.t x = if x = c.update.i then c.t c.update.j else if x = c.update.j then c.t c.update.i else c.t x :=
  Cipher.t_swap (c := c.stepped) h c.update.i c.update.j x

/-- Settles O15: Update gives the cursors by its equations and exchanges two slots. -/
theorem updateStepsAndSwaps : Obligations.UpdateStepsAndSwaps := by
  intro s hwf
  exact ⟨s.complete s.cipher.update, rfl, s.complete_frame _, s.complete_result _, s.cipher.update_i,
    s.cipher.update_j, s.cipher.update_k, s.cipher.update_z, s.cipher.update_a, s.cipher.update_w, Cipher.t_update hwf⟩

/-- Whip is the 512-fold iterate of Update, then the stride (R102). -/
theorem Cipher.whip_eq_iterate (c : Cipher) : c.whip = (Nat.iterate Cipher.update 512 c).advanceStride := by
  rw [Cipher.whip_eq, Cipher.updates_eq_iterate]

/-- Settles O16: after the 512 Updates only the stride moves. -/
theorem whipAdvancesStride : Obligations.WhipAdvancesStride := by
  intro s
  refine ⟨s.complete s.cipher.whip, _, rfl, s.complete_frame _, s.complete_result _, rfl, ?_, ?_, ?_,
    s.cipher.whip_i, s.cipher.whip_z, s.cipher.whip_a, s.cipher.whip_w⟩
  all_goals rw [State.complete_cipher, Cipher.whip_eq_iterate]
  · exact Cipher.advanceStride_table _
  · exact Cipher.advanceStride_j _
  · exact Cipher.advanceStride_k _

/-! ### Crush -/

/-- Every mirrored pair of slots `v` and `255 - v` is in ascending order: what Crush brings about (R103). -/
def Cipher.PairsSorted (c : Cipher) : Prop :=
  ∀ v < 128, c.t (BitVec.ofNat 8 v) ≤ c.t (BitVec.ofNat 8 (255 - v))

/-- Crush sorts the mirrored pairs, whatever the table holds (R103). -/
theorem Cipher.crush_pairsSorted {c : Cipher} (h : c.table.wf = true) : c.crush.PairsSorted := by
  intro v hv
  obtain ⟨hlo, hhi⟩ := Cipher.t_crush h hv
  rw [hlo, hhi]
  split <;> rename_i hlt
  · exact BitVec.le_of_lt hlt
  · exact BitVec.not_lt.mp hlt

/-- On a permutation the two bytes of a pair differ, and so Crush orders them strictly (R103). -/
theorem Cipher.t_crush_lt {c : Cipher} (h : c.table.wf = true) (hp : c.Permutation) {v : Nat} (hv : v < 128) :
    c.crush.t (BitVec.ofNat 8 v) < c.crush.t (BitVec.ofNat 8 (255 - v)) := by
  have hinj : Function.Injective c.crush.t :=
    ((Cipher.permutation_iff _).mp (Cipher.crush_permutation h hp)).injective
  have hne : c.crush.t (BitVec.ofNat 8 v) ≠ c.crush.t (BitVec.ofNat 8 (255 - v)) :=
    hinj.ne (slot_ne (by omega) (by omega) (by omega))
  exact BitVec.lt_of_le_ne (Cipher.crush_pairsSorted h v hv) hne

/-- Settles O17: Crush puts the smaller byte of a pair in its low slot and the greater in its high slot. -/
theorem crushSortsMirroredPairs : Obligations.CrushSortsMirroredPairs := by
  intro s hwf
  refine ⟨s.complete s.cipher.crush, rfl, s.complete_frame _, s.complete_result _, s.cipher.crush_i, s.cipher.crush_j,
    s.cipher.crush_k, s.cipher.crush_z, s.cipher.crush_a, s.cipher.crush_w, ?_⟩
  rintro v hv _ _ rfl rfl
  obtain ⟨hlo, hhi⟩ := Cipher.t_crush hwf hv
  exact ⟨fun hgt => ⟨hlo.trans (if_pos hgt), hhi.trans (if_pos hgt)⟩,
    fun hle => ⟨hlo.trans (if_neg hle), hhi.trans (if_neg hle)⟩, fun hp => Cipher.t_crush_lt hwf hp hv⟩

/-- Writing back the byte that a slot holds changes nothing: a canonical table has one list only (R44). -/
theorem Cipher.setT_t {c : Cipher} (h : c.table.wf = true) (x : Byte) : c.setT x (c.t x) = c := by
  have htable : c.table.write x (c.t x) = c.table := by
    refine Memory.ext_of_wf (Memory.write_wf x _ h) h fun a _ => ?_
    rw [Memory.write, Memory.lookup_put h]
    split <;> rename_i ha
    · rw [ha]
      rfl
    · rfl
  rw [Cipher.setT, htable]

/-- A pair step leaves a pair in ascending order as it is (R103). -/
theorem Cipher.crushPair_of_le {c : Cipher} (h : c.table.wf = true) {v : Nat}
    (hle : c.t (BitVec.ofNat 8 v) ≤ c.t (BitVec.ofNat 8 (255 - v))) : c.crushPair v = c := by
  rw [Cipher.crushPair, if_neg (BitVec.not_lt.mpr hle), Cipher.setT_t h, Cipher.setT_t h]

/-- Pair steps leave a table with sorted pairs as it is. -/
theorem Cipher.PairsSorted.crushPairs_eq {c : Cipher} (hs : c.PairsSorted) (h : c.table.wf = true) :
    ∀ n ≤ 128, Cipher.crushPairs n c = c
  | 0, _ => by rw [Cipher.crushPairs]
  | n + 1, hn => by
    rw [Cipher.crushPairs, hs.crushPairs_eq h n (by omega)]
    exact Cipher.crushPair_of_le h (hs n (by omega))

/-- Crush leaves a Cipher State with sorted pairs as it is (R112). -/
theorem Cipher.PairsSorted.crush_eq {c : Cipher} (hs : c.PairsSorted) (h : c.table.wf = true) : c.crush = c := by
  rw [Cipher.crush_eq, hs.crushPairs_eq h 128 (le_refl _)]

/-- Settles O18: the first CRUSH leaves the pairs sorted, and on sorted pairs CRUSH changes nothing. -/
theorem crushTwiceIsCrushOnce : Obligations.CrushTwiceIsCrushOnce := by
  intro s hwf
  exact ⟨s.complete s.cipher.crush, _, rfl, rfl,
    (Cipher.crush_pairsSorted hwf).crush_eq (Cipher.crush_wf hwf)⟩

/-! ### Shuffle -/

/-- Settles O19: Shuffle is the three whips and two crushes, and the count cleared, whatever it was. -/
theorem shuffleMixesAndClearsCount : Obligations.ShuffleMixesAndClearsCount := by
  intro s
  refine ⟨s.complete s.cipher.shuffle, _, rfl, s.complete_frame _, s.complete_result _, rfl, ?_, ?_, ?_,
    s.cipher.shuffle_a, s.cipher.shuffle_i, s.cipher.shuffle_z, s.cipher.shuffle_w⟩
  all_goals rw [State.complete_cipher, Cipher.shuffle]
  · exact Cipher.clearCount_table _
  · exact Cipher.clearCount_j _
  · exact Cipher.clearCount_k _

end Sys2Proof.Machine
end

section
/-! PROOFS. The absorption layer (41_absorb.md): the entry check by its two cases, what one nibble step does, the law
that the counter and the shuffles together count the steps, and the statements about the three commands. -/

namespace Sys2Proof.Machine

/-! ### The entry check -/

/-- A full counter shuffles (R130, R132). -/
theorem Cipher.makeRoom_of_full {c : Cipher} (h : c.a = 128) : c.makeRoom = c.shuffle := if_pos h

/-- Any other counter leaves the state as it is (R130, R132). -/
theorem Cipher.makeRoom_of_not_full {c : Cipher} (h : c.a ≠ 128) : c.makeRoom = c := if_neg h

/-- The entry check takes 128 off the counter for the shuffle it triggers. -/
theorem Cipher.makeRoom_a_toNat (c : Cipher) :
    c.makeRoom.a.toNat + 128 * (if c.a = 128 then 1 else 0) = c.a.toNat := by
  by_cases h : c.a = 128
  · rw [Cipher.makeRoom_of_full h, if_pos h, Cipher.shuffle_a, h]
    rfl
  · rw [Cipher.makeRoom_of_not_full h, if_neg h, Nat.mul_zero, Nat.add_zero]

/-- The entry check keeps i and z, and advances w by 6 for the shuffle it triggers (R138). -/
theorem Cipher.makeRoom_cursors (c : Cipher) :
    c.makeRoom.i = c.i ∧ c.makeRoom.z = c.z ∧
      c.makeRoom.w = c.w + BitVec.ofNat 8 (6 * (if c.a = 128 then 1 else 0)) := by
  by_cases h : c.a = 128
  · rw [Cipher.makeRoom_of_full h, if_pos h]
    exact ⟨c.shuffle_i, c.shuffle_z, c.shuffle_w⟩
  · rw [Cipher.makeRoom_of_not_full h, if_neg h]
    exact ⟨rfl, rfl, (BitVec.add_zero c.w).symm⟩

/-! ### ABSORB_NIBBLE -/

/-- The partner of a nibble's swap is slot 128 + n (R130). -/
theorem nibblePartner_eq (n : Nibble) : (128 + n.zeroExtend 8 : Byte) = BitVec.ofNat 8 (128 + n.toNat) := by
  apply BitVec.eq_of_toNat_eq
  simp

/-- The partner lies in 128..143 (R130). -/
theorem nibblePartner_toNat (n : Nibble) : (BitVec.ofNat 8 (128 + n.toNat)).toNat = 128 + n.toNat := by
  have := n.isLt
  rw [BitVec.toNat_ofNat]
  omega

/-- A nibble exchanges the slot at the counter with its partner, after the entry check, and leaves every other slot
(R130). -/
theorem Cipher.t_absorbNibble {c : Cipher} (h : c.table.wf = true) (n : Nibble) (x : Byte) :
    (c.absorbNibble n).t x =
      if x = c.makeRoom.a then c.makeRoom.t (BitVec.ofNat 8 (128 + n.toNat))
      else if x = BitVec.ofNat 8 (128 + n.toNat) then c.makeRoom.t c.makeRoom.a else c.makeRoom.t x := by
  rw [Cipher.absorbNibble, Cipher.t_count, nibblePartner_eq, Cipher.t_swap (Cipher.makeRoom_wf h)]

/-- The two slots of a nibble's swap are distinct: the counter is below 128 there (R130). -/
theorem Cipher.makeRoom_a_ne_partner {c : Cipher} (h : c.CountInRange) (n : Nibble) :
    c.makeRoom.a ≠ BitVec.ofNat 8 (128 + n.toNat) := by
  intro he
  have hlt := Cipher.makeRoom_a_lt h
  rw [he, nibblePartner_toNat] at hlt
  omega

/-- Settles O20: the state that the nibble swaps in is the one the entry check leaves. -/
theorem absorbNibbleSwapsAndCounts : Obligations.AbsorbNibbleSwapsAndCounts := by
  intro s n hwf
  refine ⟨s.complete (s.cipher.absorbNibble n), s.cipher.makeRoom, rfl, s.complete_frame _, s.complete_result _,
    Cipher.makeRoom_of_full, Cipher.makeRoom_of_not_full, rfl, rfl, rfl, rfl, rfl, rfl, Cipher.t_absorbNibble hwf n,
    fun ha => ?_⟩
  have hlt := Cipher.makeRoom_a_lt ha
  have hcount := Cipher.absorbNibble_a ha n
  rw [State.complete_cipher]
  exact ⟨by omega, by omega, by omega, Cipher.makeRoom_a_ne_partner ha n⟩

/-! ### ABSORB and ABSORB_STOP -/

/-- The low nibble is the byte modulo 16 (00_scope.md R11). -/
theorem lowNibble_eq (b : Byte) : lowNibble b = BitVec.ofNat 4 (b.toNat % 16) := by
  apply BitVec.eq_of_toNat_eq
  simp [lowNibble]

/-- The high nibble is the byte divided by 16 (00_scope.md R11). -/
theorem highNibble_eq (b : Byte) : highNibble b = BitVec.ofNat 4 (b.toNat / 16) := by
  apply BitVec.eq_of_toNat_eq
  simp [highNibble, Nat.shiftRight_eq_div_pow]

/-- Settles O21: the byte is its low nibble and then its high nibble. -/
theorem absorbLowNibbleFirst : Obligations.AbsorbLowNibbleFirst := by
  intro s b
  rw [← lowNibble_eq, ← highNibble_eq]
  exact ⟨s.complete (s.cipher.absorbByte b), _, _, rfl, s.complete_frame _, s.complete_result _, rfl, rfl, rfl⟩

/-- Settles O22: the entry check decides the state, and the count follows in both cases. -/
theorem absorbStopOnlyCounts : Obligations.AbsorbStopOnlyCounts := by
  intro s
  refine ⟨s.complete s.cipher.absorbStop, rfl, s.complete_frame _, s.complete_result _, fun h => ?_, fun h => ?_,
    fun ha => ?_⟩ <;> rw [State.complete_cipher]
  · rw [Cipher.absorbStop, Cipher.makeRoom_of_full h, Cipher.count, Cipher.shuffle_a]
    rfl
  · rw [Cipher.absorbStop, Cipher.makeRoom_of_not_full h, Cipher.count]
  · have hlt := Cipher.makeRoom_a_lt ha
    have hcount := Cipher.absorbStop_a ha
    omega

/-! ### Sequences of nibble steps -/

/-- A nibble step leaves the counter in 1..128 (R130, R132). -/
theorem Cipher.nibbleStep_a_range {c : Cipher} (h : c.CountInRange) (x : NibbleStep) :
    1 ≤ (c.nibbleStep x).a.toNat ∧ (c.nibbleStep x).a.toNat ≤ 128 := by
  have hlt := Cipher.makeRoom_a_lt h
  obtain ⟨ha, -⟩ := Cipher.nibbleStep_cursors c x h
  omega

/-- A nibble step keeps the canonical table. -/
theorem Cipher.nibbleStep_wf {c : Cipher} (h : c.table.wf = true) (x : NibbleStep) :
    (c.nibbleStep x).table.wf = true := by
  cases x with
  | nibble n => exact Cipher.absorbNibble_wf h n
  | stop => exact Cipher.absorbStop_wf h

/-- A non-empty sequence of nibble steps leaves the counter in 1..128. -/
theorem Cipher.nibbleSteps_a_range {c : Cipher} {xs : List NibbleStep} (h : c.CountInRange) (hne : xs ≠ []) :
    1 ≤ (c.nibbleSteps xs).a.toNat ∧ (c.nibbleSteps xs).a.toNat ≤ 128 := by
  induction xs generalizing c with
  | nil => exact absurd rfl hne
  | cons x xs ih =>
    have hx := Cipher.nibbleStep_a_range h x
    cases xs with
    | nil => exact hx
    | cons y ys => exact ih hx.2 (List.cons_ne_nil y ys)

/-- The counter and 128 for each shuffle together count the nibble steps: what R138 rests on. -/
theorem Cipher.nibbleSteps_a_add_shuffles {c : Cipher} (h : c.CountInRange) (xs : List NibbleStep) :
    (c.nibbleSteps xs).a.toNat + 128 * c.shufflesIn xs = c.a.toNat + xs.length := by
  induction xs generalizing c with
  | nil => rfl
  | cons x xs ih =>
    have hrest := ih (Cipher.nibbleStep_a_range h x).2
    have hroom := c.makeRoom_a_toNat
    obtain ⟨ha, -⟩ := Cipher.nibbleStep_cursors c x h
    rw [Cipher.nibbleSteps, Cipher.shufflesIn, List.length_cons]
    omega

/-- Nibble steps keep i and z, and advance w by 6 for each shuffle (R138). -/
theorem Cipher.nibbleSteps_cursors {c : Cipher} (h : c.CountInRange) (xs : List NibbleStep) :
    (c.nibbleSteps xs).i = c.i ∧ (c.nibbleSteps xs).z = c.z ∧
      (c.nibbleSteps xs).w = c.w + BitVec.ofNat 8 (6 * c.shufflesIn xs) := by
  induction xs generalizing c with
  | nil => exact ⟨rfl, rfl, (BitVec.add_zero c.w).symm⟩
  | cons x xs ih =>
    obtain ⟨hi, hz, hw⟩ := ih (Cipher.nibbleStep_a_range h x).2
    obtain ⟨-, hi₁, -, -, hz₁, hw₁⟩ := Cipher.nibbleStep_cursors c x h
    obtain ⟨hi₀, hz₀, hw₀⟩ := c.makeRoom_cursors
    refine ⟨hi.trans (hi₁.trans hi₀), hz.trans (hz₁.trans hz₀), hw.trans ?_⟩
    rw [hw₁, hw₀, Cipher.shufflesIn, Nat.mul_add, BitVec.ofNat_add, BitVec.add_assoc]

/-- Settles O23: the counter ends in 1..128, so the sum of the two counts fixes both. -/
theorem absorptionCountingLaw : Obligations.AbsorptionCountingLaw := by
  intro c steps ha hne
  have hzero : c.a.toNat = 0 := by rw [ha]; rfl
  have hrange : c.CountInRange := by rw [Cipher.CountInRange, hzero]; exact Nat.zero_le 128
  obtain ⟨hlo, hhi⟩ := Cipher.nibbleSteps_a_range hrange hne
  have hsum := Cipher.nibbleSteps_a_add_shuffles hrange steps
  exact ⟨by omega, by omega, Cipher.nibbleSteps_cursors hrange steps⟩

/-! ### Between two shuffles -/

/-- A sequence that triggers no shuffle starts with a counter that is not full, and triggers none later (R138). -/
theorem Cipher.shufflesIn_cons_eq_zero {c : Cipher} {x : NibbleStep} {xs : List NibbleStep} :
    c.shufflesIn (x :: xs) = 0 ↔ c.a ≠ 128 ∧ (c.nibbleStep x).shufflesIn xs = 0 := by
  simp [Cipher.shufflesIn]

/-- A nibble step without a shuffle writes no slot above 143: its two slots are below 128 and in 128..143 (R138). -/
theorem Cipher.t_nibbleStep_of_high {c : Cipher} (hwf : c.table.wf = true) (hrange : c.CountInRange)
    (hfull : c.a ≠ 128) (x : NibbleStep) {y : Byte} (hy : 143 < y.toNat) : (c.nibbleStep x).t y = c.t y := by
  cases x with
  | stop => rw [Cipher.nibbleStep, Cipher.absorbStop, Cipher.t_count, Cipher.makeRoom_of_not_full hfull]
  | nibble n =>
    have hcount : y ≠ c.makeRoom.a := by
      rintro rfl
      have := Cipher.makeRoom_a_lt hrange
      omega
    have hpartner : y ≠ BitVec.ofNat 8 (128 + n.toNat) := by
      rintro rfl
      rw [nibblePartner_toNat] at hy
      have := n.isLt
      omega
    rw [Cipher.nibbleStep, Cipher.t_absorbNibble hwf, if_neg hcount, if_neg hpartner,
      Cipher.makeRoom_of_not_full hfull]

/-- Settles O24, by induction on the sequence: its first step finds room, so it changes the counter and low slots only. -/
theorem absorptionWritesLowSlots : Obligations.AbsorptionWritesLowSlots := by
  intro c steps hwf hrange hnone
  induction steps generalizing c with
  | nil => exact ⟨rfl, rfl, rfl, rfl, rfl, fun _ _ => rfl⟩
  | cons x xs ih =>
    obtain ⟨hfull, hrest⟩ := Cipher.shufflesIn_cons_eq_zero.mp hnone
    obtain ⟨-, hi₀, hj₀, hk₀, hz₀, hw₀⟩ := Cipher.nibbleStep_cursors c x hrange
    rw [Cipher.makeRoom_of_not_full hfull] at hi₀ hj₀ hk₀ hz₀ hw₀
    obtain ⟨hi, hj, hk, hz, hw, ht⟩ :=
      ih (c.nibbleStep x) (Cipher.nibbleStep_wf hwf x) (Cipher.nibbleStep_a_range hrange x).2 hrest
    exact ⟨hi.trans hi₀, hj.trans hj₀, hk.trans hk₀, hz.trans hz₀, hw.trans hw₀,
      fun y hy => (ht y hy).trans (Cipher.t_nibbleStep_of_high hwf hrange hfull x hy)⟩

end Sys2Proof.Machine
end

section
/-! PROOFS. The extraction layer (42_extract.md): OUTPUT and DRIP as commands, a squeeze as drips, and the Host lines of
SQUEEZE on the device. -/

namespace Sys2Proof.Machine

/-! ### OUTPUT and DRIP -/

/-- Settles O25: OUTPUT writes z alone, and RESULT is z extended by zeros. -/
theorem outputChainsThreeReads : Obligations.OutputChainsThreeReads := by
  intro s
  exact ⟨s.completeResult s.cipher.output (zext32 s.cipher.output.z), rfl, s.completeResult_frame _ _, rfl,
    zext32_toNat _⟩

/-- Pending absorption makes a flush a shuffle (R151, R170). -/
theorem Cipher.flush_of_a_ne_zero {c : Cipher} (h : c.a ≠ 0) : c.flush = c.shuffle := if_neg h

/-- The flush of a Cipher State on the device: the state SHUFFLE leaves where absorption is pending, else the device as
it is (R151, R170). -/
theorem exists_flushed (s : State) : ∃ e, (s.cipher.a ≠ 0 → exec .shuffle s = .next e) ∧ (s.cipher.a = 0 → e = s) ∧
    e.cipher = s.cipher.flush := by
  by_cases h : s.cipher.a = 0
  · exact ⟨s, fun hne => absurd h hne, fun _ => rfl, (Cipher.flush_of_a_eq_zero h).symm⟩
  · exact ⟨s.complete s.cipher.shuffle, fun _ => rfl, fun h0 => absurd h0 h, (Cipher.flush_of_a_ne_zero h).symm⟩

/-- Settles O26: DRIP is an update and an output of the flushed Cipher State. -/
theorem dripShufflesUpdatesOutputs : Obligations.DripShufflesUpdatesOutputs := by
  intro s
  obtain ⟨e, hpending, hnone, he⟩ := exists_flushed s
  refine ⟨s.completeResult s.cipher.dripped (zext32 s.cipher.dripped.z), e, e.complete e.cipher.update,
    (e.complete e.cipher.update).completeResult e.cipher.update.output (zext32 e.cipher.update.output.z), rfl,
    s.completeResult_frame _ _, hpending, hnone, rfl, rfl, ?_, ?_, s.cipher.dripped_a⟩
  · rw [State.completeResult_cipher, State.completeResult_cipher, he, Cipher.dripped]
  · rw [State.completeResult_result, State.completeResult_result, he, Cipher.dripped]

/-! ### Squeeze -/

/-- `n` Drips give `n` bytes (R152). -/
theorem Cipher.drips_length (n : Nat) (c : Cipher) : (Cipher.drips n c).2.length = n := by
  induction n generalizing c with
  | zero => rfl
  | succ n ih => rw [Cipher.drips, List.length_cons, ih]

/-- Drips leave nothing pending where nothing was (R151). -/
theorem Cipher.drips_a {c : Cipher} (h : c.a = 0) (n : Nat) : (Cipher.drips n c).1.a = 0 := by
  induction n generalizing c with
  | zero => exact h
  | succ n ih => exact ih c.dripped_a

/-- The flush before the first of some Drips is the one that this Drip does itself (R158). -/
theorem Cipher.drips_succ_flush (n : Nat) (c : Cipher) : Cipher.drips (n + 1) c.flush = Cipher.drips (n + 1) c := by
  rw [Cipher.drips, Cipher.dripped_flush, Cipher.drips]

/-- Settles O27: the flush of a squeeze is all of it for no byte, and part of the first drip for some. -/
theorem squeezeIsDrips : Obligations.SqueezeIsDrips := by
  intro c n
  refine ⟨fun hn => ?_, rfl, Cipher.drips_length n c.flush, Cipher.drips_a c.flush_a n⟩
  obtain ⟨m, rfl⟩ := Nat.exists_eq_add_of_le' hn
  exact Cipher.drips_succ_flush m c

/-! ### The Host lines of SQUEEZE -/

/-- Of two groups of lines the Host issues the first one first. -/
theorem State.HostReady.append_left {s : State} {lines more rest : List HostOp} (h : s.HostReady (lines ++ more) rest) :
    s.HostReady lines (more ++ rest) :=
  ⟨{ h.toHostIdle with program := h.program.trans (List.append_assoc lines more rest) }, h.live⟩

/-- Where there are no lines, the Host has finished them already. -/
theorem State.HostReady.finishes_nil {s : State} {rest : List HostOp} (h : s.HostReady [] rest) :
    s.HostFinishes s rest s.cipher [] :=
  { reached := Reaches.refl s, resetDone := h.resetDone, idle := h.idle, live := h.live, anyOrder := h.anyOrder,
    program := h.program, cipher := rfl, reads := (List.append_nil s.reads).symm, arg := rfl, errIllegal := rfl,
    errBusy := rfl, errInvalid := rfl, build := rfl }

/-- A command line and `RD RESULT` after it: the Host reads the RESULT that the command leaves (R80, R81). -/
theorem State.HostReady.command_readResult {s : State} {i : Instr} {rest : List HostOp} {c : Cipher} {r : Word}
    (h : s.HostReady (lineCmd i ++ lineRdResult) rest) (hwf : i.wellFormed s.build.primitives = true)
    (hx : ∀ u : State, u.cipher = s.cipher → u.result = s.result → u.valid = true →
      ∃ t, exec i u = .next t ∧ u.CommandFrame t ∧ t.cipher = c ∧ t.result = r) :
    ∃ t, s.HostFinishes t rest c [r] := by
  obtain ⟨t, ht, hr⟩ := h.append_left.command (decodeInvertsEncode _ i hwf) hx
  obtain ⟨u, hu⟩ := ht.ready.read (off := offResult) (by decide) (by decide)
  have hread : t.regRead offResult = r := (t.regRead_result).trans (by rw [ht.idle, hr]; rfl)
  rw [hread, ht.cipher] at hu
  exact ⟨u, ht.trans hu⟩

/-- The FLUSH line flushes the Cipher State (R181). -/
theorem State.HostReady.flush {s : State} {rest : List HostOp} (h : s.HostReady (lineCmd .flush) rest) :
    ∃ t, s.HostFinishes t rest s.cipher.flush [] := by
  obtain ⟨t, ht, -⟩ := h.command (decodeInvertsEncode _ .flush rfl) fun u hc hr _ =>
    ⟨u.complete u.cipher.flush, rfl, u.complete_frame _, by rw [State.complete_cipher, hc], hr⟩
  exact ⟨t, ht⟩

/-- The DRIP line and `RD RESULT` give the Host one byte of keystream (R156, R157). -/
theorem State.HostReady.drip_readResult {s : State} {rest : List HostOp}
    (h : s.HostReady (lineCmd .drip ++ lineRdResult) rest) :
    ∃ t, s.HostFinishes t rest s.cipher.dripped [zext32 s.cipher.dripped.z] :=
  h.command_readResult rfl fun u hc _ _ =>
    ⟨u.completeResult u.cipher.dripped (zext32 u.cipher.dripped.z), rfl, u.completeResult_frame _ _,
      by rw [State.completeResult_cipher, hc], by rw [State.completeResult_result, hc]⟩

/-- `n` times these lines are `n` Drips (R157). -/
theorem State.HostReady.drips_readResult {s : State} {n : Nat} {rest : List HostOp}
    (h : s.HostReady (repeatLines (lineCmd .drip ++ lineRdResult) n) rest) :
    ∃ t, s.HostFinishes t rest (Cipher.drips n s.cipher).1 ((Cipher.drips n s.cipher).2.map zext32) := by
  induction n generalizing s with
  | zero => exact ⟨s, h.finishes_nil⟩
  | succ n ih =>
    obtain ⟨t, ht⟩ := h.append_left.drip_readResult
    obtain ⟨u, hu⟩ := ih ht.ready
    rw [ht.cipher] at hu
    exact ⟨u, ht.trans hu⟩

/-- The lines of SQUEEZE realise Squeeze (R152, R157). -/
theorem State.HostReady.squeeze {s : State} {n : Nat} {rest : List HostOp} (h : s.HostReady (squeezeLines n) rest) :
    ∃ t, s.HostFinishes t rest (s.cipher.squeeze n).1 ((s.cipher.squeeze n).2.map zext32) := by
  obtain ⟨t, ht⟩ := h.append_left.flush
  obtain ⟨u, hu⟩ := ht.ready.drips_readResult
  rw [ht.cipher] at hu
  exact ⟨u, ht.trans hu⟩

/-- Settles O57: the FLUSH line, and one DRIP and one read for each byte. -/
theorem squeezeSequence : Obligations.SqueezeSequence :=
  fun _ _ _ h => h.squeeze

end Sys2Proof.Machine
end

section
/-! PROOFS. The commands of the protocol layer (43_protocol.md): INIT, FLUSH, FINAL, RANDOM32 and CRYPT as the
primitives they run, and the round trip of a keystream cipher. -/

namespace Sys2Proof.Machine

/-! ### INIT, FLUSH and FINAL -/

/-- Settles O28: the Cipher State that INIT leaves is the reset one, which nothing of the state before enters. -/
theorem initResetsCipher : Obligations.InitResetsCipher := by
  intro s
  refine ⟨{ s.completeResult Cipher.reset 0 with valid := true }, rfl, Cipher.t_reset, rfl, rfl, rfl, rfl, rfl, rfl, rfl,
    fun s' t' h => ?_⟩
  obtain rfl := Host.Outcome.next.inj h
  rfl

/-- Settles O29: the flush by its two cases. -/
theorem flushShufflesIffPending : Obligations.FlushShufflesIffPending := by
  intro s
  exact ⟨s.complete s.cipher.flush, rfl, s.complete_frame _, s.complete_result _, Cipher.flush_of_a_eq_zero,
    fun h => ⟨s.complete s.cipher.shuffle, rfl, Cipher.flush_of_a_ne_zero h⟩, s.cipher.flush_a⟩

/-- FinalP is three nibble steps: the stop and the two nibbles of the length (R173). -/
theorem Cipher.finalP_eq_nibbleSteps (c : Cipher) (len : Byte) :
    c.finalP len = c.nibbleSteps [.stop, .nibble (lowNibble len), .nibble (highNibble len)] := rfl

/-- A counter in 1..128 is not 0. -/
theorem Cipher.a_ne_zero_of_pos {c : Cipher} (h : 1 ≤ c.a.toNat) : c.a ≠ 0 := by
  intro h0
  rw [h0] at h
  exact absurd h (by decide)

/-- Settles O30: FINAL is the two commands in a row, and its last nibble leaves the counter at 1 or more. -/
theorem finalBindsLength : Obligations.FinalBindsLength := by
  intro s len
  refine ⟨s.complete (s.cipher.finalP len), s.complete s.cipher.absorbStop,
    (s.complete s.cipher.absorbStop).complete (s.cipher.absorbStop.absorbByte len), rfl, s.complete_frame _,
    s.complete_result _, rfl, rfl, rfl, fun ha => ?_⟩
  rw [State.complete_cipher, Cipher.finalP_eq_nibbleSteps]
  exact Cipher.a_ne_zero_of_pos (Cipher.nibbleSteps_a_range ha (List.cons_ne_nil _ _)).1

/-! ### RANDOM32 and CRYPT -/

/-- The device after DRIP (R156). -/
def State.dripDone (s : State) : State := s.completeResult s.cipher.dripped (zext32 s.cipher.dripped.z)

@[simp] theorem State.dripDone_cipher (s : State) : s.dripDone.cipher = s.cipher.dripped := rfl
@[simp] theorem State.dripDone_result (s : State) : s.dripDone.result = zext32 s.cipher.dripped.z := rfl

/-- DRIP leaves that state. -/
theorem exec_drip (s : State) : exec .drip s = .next s.dripDone := rfl

/-- Settles O31: four DRIPs from one another, and the packed word as a number. -/
theorem random32IsFourDrips : Obligations.Random32IsFourDrips := by
  intro s
  refine ⟨s.completeResult s.cipher.random32State s.cipher.random32Value, _, _, _, _, rfl, s.completeResult_frame _ _,
    exec_drip s, exec_drip _, exec_drip _, exec_drip _, rfl, s.cipher.random32State_a, Cipher.dripped_a _,
    Cipher.dripped_a _, Cipher.dripped_a _, ?_⟩
  simp only [State.completeResult_result, Cipher.random32Value, packLE_toNat, State.dripDone_result, zext32_toNat,
    State.dripDone_cipher]

/-- Zero extension of an exclusive or. -/
theorem zext32_xor (x y : Byte) : zext32 (x ^^^ y) = zext32 x ^^^ zext32 y := BitVec.setWidth_xor

/-- Settles O32: zero extension commutes with the exclusive or, and 0 adds nothing to it. -/
theorem cryptXorsKeystream : Obligations.CryptXorsKeystream := by
  intro s b
  have hxor : zext32 (b ^^^ s.cipher.dripped.z) = zext32 b ^^^ s.dripDone.result := zext32_xor _ _
  refine ⟨s.completeResult s.cipher.dripped (zext32 (b ^^^ s.cipher.dripped.z)), s.dripDone, rfl,
    s.completeResult_frame _ _, exec_drip s, rfl, hxor, ?_⟩
  rintro rfl
  exact congrArg zext32 BitVec.zero_xor

/-- crypt of one byte more: the byte xored with a drip, and the rest from the state after it (R194). -/
theorem Cipher.cryptBytes_cons (c : Cipher) (d : Byte) (data : List Byte) :
    c.cryptBytes (d :: data) = ((c.dripped.cryptBytes data).1, (d ^^^ c.dripped.z) :: (c.dripped.cryptBytes data).2) :=
  rfl

/-- Settles O33, by induction on the data: the state does not depend on the bytes, so both runs xor with the same
keystream, and the two exclusive ors cancel. -/
theorem cryptRoundTrip : Obligations.CryptRoundTrip := by
  intro c data
  induction data generalizing c with
  | nil => exact ⟨rfl, rfl, rfl⟩
  | cons d data ih =>
    obtain ⟨hdata, hstate, hlength⟩ := ih c.dripped
    simp only [Cipher.cryptBytes_cons, BitVec.xor_assoc, BitVec.xor_self, BitVec.xor_zero, List.length_cons, hdata,
      hstate, hlength, and_self]

end Sys2Proof.Machine
end

section
/-! PROOFS. UNIFORM (43_protocol.md R172, R185): one Engine turn by its three cases, the run of its loop, and the number
theory of the smallest accepted draw. -/

namespace Sys2Proof.Machine

/-! ### One Engine turn -/

/-- A draw is accepted exactly when it is at least min (R172). -/
theorem uniformAccepts_iff {bound r : Word} : uniformAccepts bound r = true ↔ uniformMin bound ≤ r.toNat :=
  decide_eq_true_iff

section Turn

variable {s : State} {l : Latch} (hl : s.latch = some l)
include hl

/-- UNIFORM on a bound below 2 answers 0 (R172). -/
theorem exec_uniform_of_bound_lt (hb : l.bound.toNat < 2) : exec .uniform s = .next (s.completeResult s.cipher 0) := by
  have hb' : l.bound < 2 := hb
  simp only [exec, execUniform, hl, hb', if_true]

/-- UNIFORM on a bound of at least 2 makes one pass of its loop (R172). -/
theorem exec_uniform_of_le_bound (hb : 2 ≤ l.bound.toNat) :
    exec .uniform s = .next (s.uniformPass s.working l.bound) := by
  have hb' : ¬ l.bound < 2 := Nat.not_lt.mpr hb
  simp only [exec, execUniform, hl, hb', if_false]

/-- An accepted draw completes UNIFORM (R172). -/
theorem exec_uniform_of_accepts (hb : 2 ≤ l.bound.toNat)
    (ha : uniformAccepts l.bound s.working.random32Value = true) :
    exec .uniform s = .next (s.completeResult s.working.random32State (s.working.random32Value % l.bound)) := by
  rw [exec_uniform_of_le_bound hl hb, State.uniformPass_eq, Cipher.random32_snd, Cipher.random32_fst, if_pos ha]

/-- A rejected draw changes the working copy only (R172, R236). -/
theorem exec_uniform_of_rejects (hb : 2 ≤ l.bound.toNat)
    (ha : uniformAccepts l.bound s.working.random32Value = false) :
    exec .uniform s = .next { s with draw := some s.working.random32State } := by
  rw [exec_uniform_of_le_bound hl hb, State.uniformPass_eq, Cipher.random32_snd, Cipher.random32_fst,
    if_neg (Bool.not_eq_true _ ▸ ha)]

end Turn

/-- The value of an accepted draw modulo the bound, as a number below the bound (R172). -/
theorem toNat_umod_bound (r : Word) {bound : Word} (h : 2 ≤ bound.toNat) :
    (r % bound).toNat = r.toNat % bound.toNat ∧ (r % bound).toNat < bound.toNat := by
  rw [BitVec.toNat_umod]
  exact ⟨rfl, Nat.mod_lt _ (by omega)⟩

/-- Settles O34: the turn completes without a draw. -/
theorem uniformSmallBoundDrawsNothing : Obligations.UniformSmallBoundDrawsNothing := by
  intro s l hl hb
  exact ⟨_, exec_uniform_of_bound_lt hl hb, s.completeResult_frame _ _, rfl, rfl⟩

/-- Settles O35: at the first draw the working copy is the Cipher State. -/
theorem uniformAcceptedDraw : Obligations.UniformAcceptedDraw := by
  rintro s l b r hl hdraw rfl hb rfl hr
  have hw := State.working_of_draw_none hdraw
  have hx := exec_uniform_of_accepts hl hb (hw.symm ▸ uniformAccepts_iff.mpr hr)
  rw [hw] at hx
  exact ⟨_, hx, s.completeResult_frame _ _, rfl, toNat_umod_bound _ hb⟩

/-- Settles O36: a value below min is a draw that is not accepted. -/
theorem uniformRejectedDraw : Obligations.UniformRejectedDraw := by
  rintro s l b r hl rfl hb rfl hr
  have ha : uniformAccepts l.bound s.working.random32Value = false :=
    Bool.eq_false_iff.mpr fun h => Nat.not_le.mpr hr (uniformAccepts_iff.mp h)
  exact ⟨_, exec_uniform_of_rejects hl hb ha, rfl⟩

/-! ### The run of the loop -/

/-- The value of draw number `m` is the one drawn from the state after `m` draws. -/
theorem Cipher.draws_random32Value (m : Nat) (c : Cipher) : (Cipher.draws m c).random32Value = c.drawValue m := rfl

/-- One draw more. -/
theorem Cipher.draws_random32State (m : Nat) (c : Cipher) :
    (Cipher.draws m c).random32State = Cipher.draws (m + 1) c := rfl

/-- The device runs UNIFORM with the latch `l`, a bound of at least 2, and nothing is scheduled. -/
structure State.RunsUniform (s : State) (l : Latch) : Prop where
  latch : s.latch = some l
  command : decode s.build.primitives l.word = .cmd .uniform
  bound : 2 ≤ l.bound.toNat
  busy : s.busy = true
  resetDone : s.resetDone = true
  schedule : s.schedule = []

/-- Such a device takes an Engine turn of UNIFORM (log entry 3). -/
theorem State.RunsUniform.step_eq {s : State} {l : Latch} (h : s.RunsUniform l) : step s = exec .uniform s := by
  have hfetch : s.fetch = some .uniform := State.fetch_eq_some.mpr ⟨l, h.latch, h.command⟩
  simp only [step, State.nextTurn, h.schedule, State.defaultTurn, h.busy, h.resetDone, Bool.and_self, if_true,
    State.runTurn, State.engineTurn, Bool.not_true, Bool.false_eq_true, if_false, hfetch]

/-- From the working copy after `m` draws, `k` rejected draws more and the accepted draw `n = m + k` complete the
command; by induction on the rejected draws to come. -/
theorem State.RunsUniform.run {s : State} {l : Latch} {n : Nat} (h : s.RunsUniform l)
    (hend : s.cipher.LoopEndsAt l.bound n) (k : Nat) {m : Nat} (hmk : m + k = n)
    (hw : s.working = Cipher.draws m s.cipher) :
    Host.Core.run Sys2Proof.core (k + 1) s =
      .next (s.completeResult (Cipher.draws (n + 1) s.cipher) (s.cipher.drawValue n % l.bound)) := by
  induction k generalizing s m with
  | zero =>
    obtain rfl : m = n := hmk
    have hx := exec_uniform_of_accepts h.latch h.bound (by rw [hw, Cipher.draws_random32Value, hend.2])
    rw [run_succ (h.step_eq.trans hx), run_zero, hw, Cipher.draws_random32Value, Cipher.draws_random32State]
  | succ k ih =>
    have hx := exec_uniform_of_rejects h.latch h.bound (by rw [hw, Cipher.draws_random32Value, hend.1 m (by omega)])
    rw [hw, Cipher.draws_random32State] at hx
    have hnext : State.RunsUniform { s with draw := some (Cipher.draws (m + 1) s.cipher) } l := { h with }
    rw [run_succ (h.step_eq.trans hx)]
    exact ih hnext hend (by omega) (State.working_of_draw_some rfl)

/-- Settles O37: the run from the empty working copy, which is the Cipher State after no draw. -/
theorem uniformRunsItsLoop : Obligations.UniformRunsItsLoop := by
  intro s l n hl hd hb hdraw hbusy hr hs hend
  have h : s.RunsUniform l := ⟨hl, hd, hb, hbusy, hr, hs⟩
  exact ⟨_, h.run hend n (Nat.zero_add n) (State.working_of_draw_none hdraw), s.completeResult_frame _ _, rfl,
    toNat_umod_bound _ hb⟩

/-! ### The law of min -/

/-- min is 2^32 mod bound: taking the bound off once does not change the remainder (R172). -/
theorem uniformMin_eq (bound : Word) : uniformMin bound = 2 ^ 32 % bound.toNat :=
  (Nat.mod_eq_sub_mod bound.isLt.le).symm

/-- A number below 2^n divides 2^n exactly when it is a power of two. -/
theorem dvd_two_pow_iff {b n : Nat} (h : b < 2 ^ n) : b ∣ 2 ^ n ↔ ∃ e, b = 2 ^ e := by
  rw [Nat.dvd_prime_pow Nat.prime_two]
  constructor
  · rintro ⟨e, -, he⟩
    exact ⟨e, he⟩
  · rintro ⟨e, rfl⟩
    exact ⟨e, (Nat.pow_lt_pow_iff_right (by decide)).mp h |>.le, rfl⟩

/-- Among the last `q * b` numbers below `N`, each remainder modulo `b` occurs `q` times. -/
theorem card_filter_mod_eq {N m q b v : Nat} (hN : m + b * q = N) (hv : v < b) :
    ((Finset.range N).filter fun r => m ≤ r ∧ r % b = v).card = q := by
  have hperiodic : Function.Periodic (· ≡ v [MOD b]) (b * q) := fun r => by
    simp [Nat.ModEq]
  have hset : ((Finset.range N).filter fun r => m ≤ r ∧ r % b = v) =
      (Finset.Ico m (m + b * q)).filter (· ≡ v [MOD b]) := by
    ext r
    simp only [Finset.mem_filter, Finset.mem_range, Finset.mem_Ico, Nat.ModEq, Nat.mod_eq_of_lt hv, hN]
    tauto
  rw [hset, Nat.filter_Ico_card_eq_of_periodic m (b * q) _ hperiodic, Nat.count_modEq_card _ (by omega)]
  simp [Nat.mul_div_cancel_left q (by omega : 0 < b)]

/-- Settles O39: the accepted draws are the last (2^32 - min) / bound blocks of bound numbers below 2^32. -/
theorem uniformIsUnbiased : Obligations.UniformIsUnbiased := by
  rintro bound b rfl hb
  rw [uniformMin_eq]
  have hdvd : bound.toNat ∣ 2 ^ 32 - 2 ^ 32 % bound.toNat := Nat.dvd_sub_mod _
  refine ⟨rfl, Nat.mod_lt _ (by omega), ?_, hdvd, fun v hv => card_filter_mod_eq ?_ hv⟩
  · rw [← Nat.dvd_iff_mod_eq_zero, dvd_two_pow_iff bound.isLt]
  · rw [Nat.mul_div_cancel' hdvd, Nat.add_sub_cancel' (Nat.mod_le _ _)]

end Sys2Proof.Machine
end

section
/-! PROOFS. The pseudo-instructions of the protocol as Host lines (43_protocol.md R190 to R204). What lines do on an
idle live device is said as a function of the Cipher State, so that lines after lines compose as functions do. That the
runs come to their end rests on log entry 3. -/

namespace Sys2Proof.Machine

/-! ### Lines as functions of the Cipher State -/

/-- On an idle live device, in any order of turns, the lines take the Cipher State `c` to `f c` and the Host reads
`out c`. -/
def LinesRealise (lines : List HostOp) (f : Cipher → Cipher) (out : Cipher → List Word) : Prop :=
  ∀ (s : State) (rest : List HostOp), s.HostReady lines rest → ∃ t, s.HostFinishes t rest (f s.cipher) (out s.cipher)

/-- No lines do nothing. -/
theorem LinesRealise.nil : LinesRealise [] id fun _ => [] :=
  fun s _ h => ⟨s, h.finishes_nil⟩

/-- Lines after lines. -/
theorem LinesRealise.append {lines lines' : List HostOp} {f g : Cipher → Cipher} {out out' : Cipher → List Word}
    (h : LinesRealise lines f out) (h' : LinesRealise lines' g out') :
    LinesRealise (lines ++ lines') (fun c => g (f c)) fun c => out c ++ out' (f c) := by
  intro s rest hs
  obtain ⟨t, ht⟩ := h s _ hs.append_left
  obtain ⟨u, hu⟩ := h' t rest ht.ready
  rw [ht.cipher] at hu
  exact ⟨u, ht.trans hu⟩

/-- The line of a command that completes with a new Cipher State and leaves RESULT. -/
theorem LinesRealise.command {i : Instr} {f : Cipher → Cipher} (hwf : ∀ p, i.wellFormed p = true)
    (hx : ∀ u : State, exec i u = .next (u.complete (f u.cipher))) : LinesRealise (lineCmd i) f fun _ => [] := by
  intro s rest hs
  obtain ⟨t, ht, -⟩ := hs.command (decodeInvertsEncode _ i (hwf _)) fun u hc hr _ =>
    ⟨_, hx u, u.complete_frame _, by rw [State.complete_cipher, hc], hr⟩
  exact ⟨t, ht⟩

/-- The FLUSH line (R181). -/
theorem flushLine : LinesRealise (lineCmd .flush) Cipher.flush fun _ => [] := fun _ _ h => h.flush

/-- The ABSORB_STOP line (R137). -/
theorem absorbStopLine : LinesRealise (lineCmd .absorbStop) Cipher.absorbStop fun _ => [] :=
  .command (fun _ => rfl) fun _ => rfl

/-- The FINAL line (R182). -/
theorem finalLine (len : Byte) : LinesRealise (lineCmd (.final len)) (·.finalP len) fun _ => [] :=
  .command (fun _ => rfl) fun _ => rfl

/-- ABSORB_BYTES realises AbsorbBytes (R133). -/
theorem absorbBytesLines_realise (buf : List Byte) :
    LinesRealise (absorbBytesLines buf) (·.absorbBytes buf) fun _ => [] := by
  induction buf with
  | nil => exact .nil
  | cons b buf ih =>
    have hb : LinesRealise (lineCmd (.absorb b)) (·.absorbByte b) fun _ => [] := .command (fun _ => rfl) fun _ => rfl
    exact hb.append ih

/-- SQUEEZE realises Squeeze (R152, R157). -/
theorem squeezeLines_realise (n : Nat) :
    LinesRealise (squeezeLines n) (fun c => (c.squeeze n).1) fun c => (c.squeeze n).2.map zext32 :=
  fun _ _ h => h.squeeze

/-- The CRYPT line and `RD RESULT` give the Host the byte xored with one byte of keystream (R184). -/
theorem cryptLine_readResult (d : Byte) :
    LinesRealise (lineCmd (.crypt d) ++ lineRdResult) Cipher.dripped fun c => [zext32 (d ^^^ c.dripped.z)] :=
  fun _ _ h => h.command_readResult rfl fun u hc _ _ =>
    ⟨u.completeResult u.cipher.dripped (zext32 (d ^^^ u.cipher.dripped.z)), rfl, u.completeResult_frame _ _,
      by rw [State.completeResult_cipher, hc], by rw [State.completeResult_result, hc]⟩

/-- CRYPT_BUF realises crypt (R194). -/
theorem cryptBufLines_realise (data : List Byte) :
    LinesRealise (cryptBufLines data) (fun c => (c.cryptBytes data).1) fun c => (c.cryptBytes data).2.map zext32 := by
  induction data with
  | nil => exact .nil
  | cons d data ih => exact (cryptLine_readResult d).append ih

/-- Settles O59: the lines of CRYPT_BUF realise crypt. -/
theorem cryptBufferSequence : Obligations.CryptBufferSequence :=
  fun s data rest h => cryptBufLines_realise data s rest h

/-! ### Sequences that begin with INIT -/

/-- The INIT line brings an idle device, live or wiped, to the reset Cipher State (R180). -/
theorem State.HostIdle.init {s : State} {rest : List HostOp} (h : s.HostIdle (lineCmd .init) rest) :
    ∃ t, s.HostFinishes t rest Cipher.reset [] := by
  obtain ⟨t, ht, -⟩ := h.command (decodeInvertsEncode _ .init rfl) (.inr rfl) fun u _ _ _ =>
    ⟨_, rfl, execInit_line u, rfl, rfl⟩
  exact ⟨t, ht⟩

/-- Lines after INIT do on an idle device, live or wiped, what they do from the reset Cipher State. -/
theorem State.HostIdle.init_append {s : State} {lines rest : List HostOp} {f : Cipher → Cipher}
    {out : Cipher → List Word} (h : s.HostIdle (lineCmd .init ++ lines) rest) (hl : LinesRealise lines f out) :
    ∃ t, s.HostFinishes t rest (f Cipher.reset) (out Cipher.reset) := by
  have hinit : s.HostIdle (lineCmd .init) (lines ++ rest) :=
    { h with program := h.program.trans (List.append_assoc _ lines rest) }
  obtain ⟨t, ht⟩ := hinit.init
  obtain ⟨u, hu⟩ := hl t rest ht.ready
  rw [ht.cipher] at hu
  exact ⟨u, ht.trans hu⟩

/-- What SETUP does after INIT: absorb the key and flush (R190). -/
theorem keyLines_realise (key : List Byte) :
    LinesRealise (absorbBytesLines key ++ lineCmd .flush) (fun c => (c.absorbBytes key).flush) fun _ => [] :=
  (absorbBytesLines_realise key).append flushLine

/-- Absorbing bytes keeps a pending counter pending and in range. -/
theorem Cipher.absorbBytes_a_range {c : Cipher} (h : 1 ≤ c.a.toNat ∧ c.a.toNat ≤ 128) (buf : List Byte) :
    1 ≤ (c.absorbBytes buf).a.toNat ∧ (c.absorbBytes buf).a.toNat ≤ 128 := by
  induction buf generalizing c with
  | nil => exact h
  | cons b buf ih =>
    exact ih (Cipher.nibbleSteps_a_range (xs := [.nibble (lowNibble b), .nibble (highNibble b)]) h.2
      (List.cons_ne_nil _ _))

/-- After the flush, the stop and the nonce of SETUP_IV absorption is pending, so its last flush shuffles (R191). -/
theorem Cipher.nonce_flush_eq_shuffle (c : Cipher) (nonce : List Byte) :
    (c.flush.absorbStop.absorbBytes nonce).flush = (c.flush.absorbStop.absorbBytes nonce).shuffle := by
  have hrange : c.flush.CountInRange := by
    rw [Cipher.CountInRange, Cipher.flush_a]
    exact Nat.zero_le 128
  have hstop := Cipher.nibbleStep_a_range hrange .stop
  exact Cipher.flush_of_a_ne_zero (Cipher.a_ne_zero_of_pos (Cipher.absorbBytes_a_range hstop nonce).1)

/-- Settles O58: the key lines after INIT, and the stop, the nonce and the flush after them. -/
theorem setupSequences : Obligations.SetupSequences := by
  intro s key nonce rest
  constructor
  · intro h
    rw [setupLines, List.append_assoc] at h
    obtain ⟨t, ht⟩ := h.init_append (keyLines_realise key)
    exact ⟨t, ht, ht.cipher ▸ Cipher.flush_a _⟩
  · intro h
    simp only [setupIVLines, setupLines, List.append_assoc] at h
    obtain ⟨t, ht⟩ := h.init_append <| (absorbBytesLines_realise key).append <| flushLine.append <|
      absorbStopLine.append <| (absorbBytesLines_realise nonce).append flushLine
    rw [Cipher.nonce_flush_eq_shuffle] at ht
    exact ⟨t, ht, ht.cipher ▸ Cipher.shuffle_a _⟩

/-- HASH_FINAL realises FinalP and a squeeze (R199). -/
theorem hashFinalLines_realise (n : Byte) :
    LinesRealise (hashFinalLines n) (fun c => ((c.finalP n).squeeze n.toNat).1)
      fun c => ((c.finalP n).squeeze n.toNat).2.map zext32 :=
  (finalLine n).append (squeezeLines_realise n.toNat)

/-- Settles O60: HASH and MAC end in the same lines, from what has been absorbed after INIT. -/
theorem hashAndMacSequences : Obligations.HashAndMacSequences := by
  rintro s data key msg n rest _ _ rfl rfl
  constructor
  · intro h
    rw [hashLines, List.append_assoc] at h
    exact h.init_append ((absorbBytesLines_realise data).append (hashFinalLines_realise n))
  · intro h
    simp only [macLines, macInitLines, List.append_assoc] at h
    exact h.init_append <| (absorbBytesLines_realise key).append <| absorbStopLine.append <|
      (absorbBytesLines_realise msg).append (hashFinalLines_realise n)

end Sys2Proof.Machine
end

section
/-! PROOFS. The system commands NOP and WIPE (44_system.md), and what the registers of a wiped device read. -/

namespace Sys2Proof.Machine

/-- Settles O40: NOP completes with the Cipher State it finds. -/
theorem nopDoesNothing : Obligations.NopDoesNothing := fun s =>
  ⟨s.complete s.cipher, rfl, s.complete_frame _, s.complete_result _, s.complete_cipher _⟩

/-! ### The wiped Cipher State in the registers (R211) -/

@[simp] theorem Cipher.cur0_wiped : Cipher.wiped.cur0 = 0 := rfl
@[simp] theorem Cipher.cur1_wiped : Cipher.wiped.cur1 = 0 := rfl

@[simp] theorem Cipher.tableWord_wiped (m : Nat) : Cipher.wiped.tableWord m = 0 := by
  simp only [Cipher.tableWord, Cipher.t_wiped]
  rfl

/-- With a wiped Cipher State and ARG and RESULT 0, only STATUS and CAPS can read other than 0, at any offset and with
or without readback. -/
theorem State.regRead_of_wiped {s : State} (hcipher : s.cipher = Cipher.wiped) (harg : s.arg = 0)
    (hresult : s.result = 0) {off : Nat} (hstatus : off ≠ offStatus) (hcaps : off ≠ offCaps) : s.regRead off = 0 := by
  simp only [State.regRead, if_neg hstatus, if_neg hcaps, hcipher, harg, hresult, Cipher.cur0_wiped, Cipher.cur1_wiped,
    Cipher.tableWord_wiped, ite_self]

/-- Settles O41: WIPE leaves the one wiped Cipher State, which reads 0 in every slot and so in every register. -/
theorem wipeZeroesEverything : Obligations.WipeZeroesEverything := by
  intro s
  refine ⟨{ s.completeResult Cipher.wiped 0 with arg := 0, valid := false }, rfl, Cipher.t_wiped, rfl, rfl, rfl, rfl,
    rfl, rfl, rfl, fun off hstatus hcaps => State.regRead_of_wiped rfl rfl rfl hstatus hcaps, fun s' t' h => ?_⟩
  obtain rfl := Host.Outcome.next.inj h
  rfl

end Sys2Proof.Machine
end

section
/-! PROOFS. The exceptions and what stands around them (60_exceptions.md): the acceptance of a CMD write and a write of
ARG, case by case (R222, R223), the Engine's turn of a busy device (R222) and a UNIFORM that rejects every draw (R236). -/

namespace Sys2Proof.Machine

/-! ### The acceptance of a CMD write -/

/-- The commands that a wiped device accepts, listed (10_state.md R27). -/
theorem legalWhileWiped_iff {i : Instr} : legalWhileWiped i = true ↔ i = .nop ∨ i = .init ∨ i = .wipe := by
  cases i <;> simp [legalWhileWiped]

section Accept

variable {s : State} {w : Word}

/-- A busy device drops the word (R222). -/
theorem State.accept_of_busy (hb : s.busy = true) : s.accept w = s.raise .busy := if_pos hb

/-- An idle device drops an illegal word (R222). -/
theorem State.accept_of_illegal {why : Reject} (hb : s.busy = false) (hd : decode s.build.primitives w = .illegal why) :
    s.accept w = s.raise .illegal := by
  simp [State.accept, hb, hd]

/-- An idle wiped device drops the word of a command that it does not accept (R222). -/
theorem State.accept_of_wiped {i : Instr} (hb : s.busy = false) (hd : decode s.build.primitives w = .cmd i)
    (hv : s.valid = false) (hi : legalWhileWiped i = false) : s.accept w = s.raise .invalid := by
  simp [State.accept, hb, hd, hv, hi]

/-- An idle device latches the word of any other command (R222). -/
theorem State.accept_of_legal {i : Instr} (hb : s.busy = false) (hd : decode s.build.primitives w = .cmd i)
    (hi : s.valid = true ∨ legalWhileWiped i = true) : s.accept w = s.latchCommand w := by
  rcases hi with hi | hi <;> simp [State.accept, hb, hd, hi]

end Accept

/-- A scheduled Host write of CMD is the acceptance procedure (R222). -/
theorem State.HostMoves.step_cmd {s t : State} {w : Word} {rest : List HostOp} {later : List Turn}
    (h : s.HostMoves (.write .word 0x000 w) rest later) (ht : (s.dropTurn later).accept w = t) :
    step s = .next (t.hostDone rest) :=
  ht ▸ h.step_write (by decide) (by decide)

/-- Settles O5: the step is the acceptance procedure, whose checks are taken in R222's order. -/
theorem commandAcceptance : Obligations.CommandAcceptance := by
  intro s w rest later h
  refine ⟨fun hb => ?_, fun hb ⟨why, hd⟩ => ?_, fun i hb hd => ⟨fun hv hnop hinit hwipe => ?_, fun hi => ?_⟩⟩
  · exact h.step_cmd (State.accept_of_busy hb)
  · exact h.step_cmd (State.accept_of_illegal hb hd)
  · have hi : legalWhileWiped i = false :=
      Bool.eq_false_iff.mpr fun hi => by simpa [hnop, hinit, hwipe] using legalWhileWiped_iff.mp hi
    exact h.step_cmd (State.accept_of_wiped hb hd hv hi)
  · exact h.step_cmd (State.accept_of_legal hb hd (hi.imp_right legalWhileWiped_iff.mpr))

/-! ### ARG -/

@[simp] theorem State.regRead_arg (s : State) : s.regRead 0x008 = s.arg := rfl

/-- The effect of WIPE is no other command's. -/
theorem effectOf_ne_wipe {i : Instr} (hi : i ≠ .wipe) (e : Cipher) (l : Option Latch) (d : Option Cipher) :
    effectOf e l d i ≠ .wipe := by
  cases i with
  | wipe => exact absurd rfl hi
  | uniform =>
    cases l with
    | none => nofun
    | some l =>
      simp only [effectOf, uniformEffect]
      split_ifs <;> nofun
  | nop | init | absorb | absorbStop | flush | final | drip | random32 | crypt | update | whip | crush | shuffle
  | absorbNibble | output => nofun

/-- Every effect but that of WIPE is the same whatever ARG holds, and leaves ARG. -/
theorem Effect.apply_withArg {f : Effect} (hf : f ≠ .wipe) {s u : State} (h : f.apply s = .next u) (a : Word) :
    f.apply { s with arg := a } = .next { u with arg := a } := by
  cases f with
  | wipe => exact absurd rfl hf
  | stuck => cases h
  | done | doneResult | init | redraw =>
    obtain rfl := Host.Outcome.next.inj h
    rfl

/-- No command but WIPE reads or writes ARG: UNIFORM's bound is in LATCH (R223, 43_protocol.md R185). -/
theorem exec_withArg {i : Instr} (hi : i ≠ .wipe) {s u : State} (h : exec i s = .next u) (a : Word) :
    exec i { s with arg := a } = .next { u with arg := a } := by
  rw [exec_eq_effect] at h ⊢
  exact Effect.apply_withArg (effectOf_ne_wipe hi _ _ _) h a

/-- A busy device drops a write of ARG (R223). -/
theorem State.writeArg_of_busy {s : State} {v : Word} (hb : s.busy = true) : s.writeArg v = s.raise .busy := if_pos hb

/-- An idle device takes it (R35). -/
theorem State.writeArg_of_idle {s : State} {v : Word} (hb : s.busy = false) : s.writeArg v = { s with arg := v } :=
  if_neg (Bool.not_eq_true _ ▸ hb)

/-- A scheduled Host write of ARG reaches the register (R35). -/
theorem State.HostMoves.step_arg {s t : State} {v : Word} {rest : List HostOp} {later : List Turn}
    (h : s.HostMoves (.write .word 0x008 v) rest later) (ht : (s.dropTurn later).writeArg v = t) :
    step s = .next (t.hostDone rest) :=
  ht ▸ h.step_write (by decide) (by decide)

/-- Settles O6: UNIFORM is a command that does not read ARG, and a write of ARG is taken exactly by an idle device. -/
theorem argWrite : Obligations.ArgWrite := by
  refine ⟨State.regRead_arg, fun s u a h => exec_withArg (by decide) h a, fun s v rest later h => ?_⟩
  exact ⟨fun hb => h.step_arg (State.writeArg_of_busy hb), fun hb => h.step_arg (State.writeArg_of_idle hb)⟩

/-! ### The Engine's turn -/

/-- The Engine of a busy device runs the command that it fetches (R222). -/
theorem State.engineTurn_eq_exec {s : State} {i : Instr} (hb : s.busy = true) (hr : s.resetDone = true)
    (hf : s.fetch = some i) : s.engineTurn = exec i s := by
  simp only [State.engineTurn, hr, hb, hf, Bool.not_true, Bool.false_eq_true, if_false, if_true]

/-- A scheduled turn is the step. -/
theorem step_of_scheduled {s : State} {t : Turn} {later : List Turn} (hs : s.schedule = t :: later) :
    step s = (s.dropTurn later).runTurn t := by
  rw [step, State.nextTurn, hs]

/-- On an empty schedule a busy device that has been reset takes an Engine turn (log entry 3). -/
theorem step_of_busy_unscheduled {s : State} (hb : s.busy = true) (hr : s.resetDone = true) (hs : s.schedule = []) :
    step s = s.engineTurn := by
  rw [step, State.nextTurn, hs, State.defaultTurn, hb, hr]
  rfl

/-- Settles O43: the Engine fetches the latched command, by its own turn and on an empty schedule. -/
theorem stepRunsLatchedCommand : Obligations.StepRunsLatchedCommand := by
  intro s l i hl hd hb hr
  have hfetch : s.fetch = some i := State.fetch_eq_some.mpr ⟨l, hl, hd⟩
  refine ⟨fun later hs => ?_, fun hs => ?_⟩
  · rw [step_of_scheduled hs]
    exact State.engineTurn_eq_exec (s := s.dropTurn later) hb hr hfetch
  · rw [step_of_busy_unscheduled hb hr hs, State.engineTurn_eq_exec hb hr hfetch]

/-! ### A UNIFORM that rejects every draw -/

/-- While every draw is rejected, `k` steps from the working copy after `m` draws change the working copy only, by
induction on the steps (R236). -/
theorem State.RunsUniform.run_of_rejects {s : State} {l : Latch} (h : s.RunsUniform l)
    (hrej : ∀ n, s.cipher.RejectsFirst l.bound n) (k : Nat) {m : Nat} (hw : s.working = Cipher.draws m s.cipher) :
    ∃ d, Host.Core.run Sys2Proof.core k s = .next { s with draw := d } := by
  induction k generalizing s m with
  | zero => exact ⟨s.draw, run_zero s⟩
  | succ k ih =>
    have hx := exec_uniform_of_rejects h.latch h.bound
      (by rw [hw, Cipher.draws_random32Value, hrej (m + 1) m (Nat.lt_succ_self m)])
    rw [hw, Cipher.draws_random32State] at hx
    have hnext : State.RunsUniform { s with draw := some (Cipher.draws (m + 1) s.cipher) } l := { h with }
    rw [run_succ (h.step_eq.trans hx)]
    exact ih hnext hrej (State.working_of_draw_some rfl)

/-- Settles O38: the loop starts with the Cipher State, which is the working copy after no draw. -/
theorem uniformMayNeverEnd : Obligations.UniformMayNeverEnd := by
  intro s l hl hd hbound hdraw hb hr hs hrej k
  have h : s.RunsUniform l := ⟨hl, hd, hbound, hb, hr, hs⟩
  obtain ⟨d, hrun⟩ := h.run_of_rejects hrej k (m := 0) (State.working_of_draw_none hdraw)
  exact ⟨_, hrun, rfl⟩

end Sys2Proof.Machine
end

section
/-! PROOFS. The instances of a platform (00_scope.md R8, R9; 60_exceptions.md R232): what a step of one does to the list
of them, and which one a bus address belongs to. -/

namespace Sys2Proof.Machine

/-! ### Steps -/

/-- What a step of device `n` answers: the platform itself where there is no such device, else the platform with that
device's next state in its place. -/
theorem Platform.stepAt_eq_next {p q : Platform} {n : Nat} : p.stepAt n = .next q ↔
    (p[n]? = none ∧ q = p) ∨
      ∃ x t, p[n]? = some x ∧ step x.dev = .next t ∧ q = p.set n { x with dev := t } := by
  unfold Platform.stepAt
  cases p[n]? with
  | none => simp [eq_comm]
  | some x => cases hx : step x.dev <;> simp [hx, eq_comm]

/-- A step of one device leaves every other as it was (R232). -/
theorem Platform.stepAt_frame {p q : Platform} {n m : Nat} (h : p.stepAt n = .next q) (hne : m ≠ n) :
    q[m]? = p[m]? := by
  rcases Platform.stepAt_eq_next.mp h with ⟨-, rfl⟩ | ⟨x, t, -, -, rfl⟩
  · rfl
  · exact List.getElem?_set_ne hne.symm

/-- The steps of two devices in the other order give the same platform (R232). -/
theorem Platform.stepAt_comm {p q r : Platform} {n m : Nat} (hne : m ≠ n) (hn : p.stepAt n = .next q)
    (hm : q.stepAt m = .next r) : ∃ q', p.stepAt m = .next q' ∧ q'.stepAt n = .next r := by
  have hother : q[m]? = p[m]? := Platform.stepAt_frame hn hne
  rcases Platform.stepAt_eq_next.mp hn with ⟨habsent, rfl⟩ | ⟨x, t, hx, ht, rfl⟩
  · have habsent' : r[n]? = none := (Platform.stepAt_frame hm hne.symm).trans habsent
    exact ⟨r, hm, Platform.stepAt_eq_next.mpr (.inl ⟨habsent', rfl⟩)⟩
  · rcases Platform.stepAt_eq_next.mp hm with ⟨habsent, rfl⟩ | ⟨y, u, hy, hu, rfl⟩
    · exact ⟨p, Platform.stepAt_eq_next.mpr (.inl ⟨hother ▸ habsent, rfl⟩), hn⟩
    · refine ⟨p.set m { y with dev := u }, Platform.stepAt_eq_next.mpr (.inr ⟨y, u, hother ▸ hy, hu, rfl⟩),
        Platform.stepAt_eq_next.mpr (.inr ⟨x, t, ?_, ht, List.set_comm _ _ hne.symm⟩)⟩
      rw [List.getElem?_set_ne hne, hx]

/-! ### Bus addresses -/

/-- A device covers the 512 addresses from its base up (R9). -/
theorem Placed.covers_iff {x : Placed} {addr : Nat} :
    x.covers addr = true ↔ x.base ≤ addr ∧ addr < x.base + offEnd :=
  decide_eq_true_iff

/-- The first device takes the addresses that it covers. -/
theorem Platform.route_cons_of_covers {x : Placed} {addr : Nat} (h : x.covers addr = true) (p : Platform) :
    Platform.route (x :: p) addr = some (0, addr - x.base) := if_pos h

/-- An address that the first device does not cover is routed by the others. -/
theorem Platform.route_cons_of_not_covers {x : Placed} {p : Platform} {addr n off : Nat} (hx : ¬ x.covers addr = true)
    (hp : p.route addr = some (n, off)) : Platform.route (x :: p) addr = some (n + 1, off) := by
  rw [Platform.route, if_neg hx, hp]

/-- Among devices that do not overlap, an offset from the base of one selects it, by induction on the devices before it
(R9). -/
theorem Platform.route_base_add {p : Platform} {n off : Nat} {x : Placed} (hd : p.disjoint) (hx : p[n]? = some x)
    (hoff : off < offEnd) : p.route (x.base + off) = some (n, off) := by
  induction p generalizing n with
  | nil => simp at hx
  | cons y p ih =>
    obtain ⟨hfirst, hrest⟩ := List.pairwise_cons.mp hd
    cases n with
    | zero =>
      obtain rfl : y = x := by simpa using hx
      rw [Platform.route_cons_of_covers (Placed.covers_iff.mpr (by omega)), Nat.add_sub_cancel_left]
    | succ n =>
      have hx' : p[n]? = some x := by simpa using hx
      have hapart := hfirst x (List.mem_of_getElem? hx')
      have hcovers : ¬ y.covers (x.base + off) = true := by
        rw [Placed.covers_iff]
        omega
      exact Platform.route_cons_of_not_covers hcovers (ih hrest hx')

/-- Settles O56: the frame of a step, the exchange of two steps, and the routing of an address. -/
theorem instancesShareNothing : Obligations.InstancesShareNothing :=
  ⟨fun _ _ _ _ h hne => Platform.stepAt_frame h hne, fun _ _ _ _ _ hne hn hm => Platform.stepAt_comm hne hn hm,
    fun _ _ _ _ hd hx hoff => Platform.route_base_add hd hx hoff⟩

end Sys2Proof.Machine
end

section
/-! PROOFS. Reset and hazards (70_reset_and_hazards.md): a device before its first hardware reset (R251), an idle device
that waits for a CMD write (R253), and a CMD write that races the Engine (R255). -/

namespace Sys2Proof.Machine

/-! ### Before the first hardware reset -/

/-- Without a reset since power-up a Host access is refused (R251). -/
theorem State.hostTurn_of_not_resetDone {s : State} (hr : s.resetDone = false) (hp : s.program ≠ []) :
    s.hostTurn = .refused .beforeHardwareReset := by
  obtain ⟨op, rest, hop⟩ := List.exists_cons_of_ne_nil hp
  rw [State.hostTurn, hop]
  simp only [hr, Bool.not_false, if_true]

/-- So is an Engine turn (R251). -/
theorem State.engineTurn_of_not_resetDone {s : State} (hr : s.resetDone = false) :
    s.engineTurn = .refused .beforeHardwareReset := by
  simp only [State.engineTurn, hr, Bool.not_false, if_true]

/-- Settles O55: each clause is the scheduled turn of its agent. -/
theorem refusedBeforeHardwareReset : Obligations.RefusedBeforeHardwareReset := by
  intro s later
  refine ⟨fun hr => ⟨fun hs hp => ?_, fun hs => ?_⟩, fun hs => ?_, fun hs => ?_⟩
  · rw [step_of_scheduled hs]
    exact State.hostTurn_of_not_resetDone (s := s.dropTurn later) hr hp
  · rw [step_of_scheduled hs]
    exact State.engineTurn_of_not_resetDone (s := s.dropTurn later) hr
  · exact ⟨_, step_of_scheduled hs, rfl, rfl, rfl⟩
  · exact ⟨_, step_of_scheduled hs, rfl⟩

/-! ### An idle device -/

/-- The Host has nothing to do, or it reads an aligned word of the block or polls next. -/
def State.HostIsPassive (s : State) : Prop :=
  s.program = [] ∨ (∃ off rest, s.program = .read .word off :: rest ∧ off < 0x200 ∧ off % 4 = 0) ∨
    ∃ rest, s.program = .wait :: rest

/-- A Host with nothing to do leaves everything as it is (R253, log entry 4). -/
theorem State.hostTurn_of_nil {s : State} (hp : s.program = []) : s.hostTurn = .next s := by
  rw [State.hostTurn, hp]

/-- A Host read of an aligned word inside the block keeps the register's value (R55). -/
theorem State.hostTurn_of_read {s : State} {off : Nat} {rest : List HostOp} (hr : s.resetDone = true)
    (hp : s.program = .read .word off :: rest) (hoff : off < 0x200) (h4 : off % 4 = 0) :
    s.hostTurn = .next ((s.hostDone rest).keepRead (s.regRead off)) := by
  rw [State.hostTurn, hp]
  simp only [hr, Bool.not_true, Bool.false_eq_true, if_false, checkAccess_inside hoff h4]

/-- A poll of an idle device ends the WAIT (30_encoding.md R81). -/
theorem State.hostTurn_of_wait_idle {s : State} {rest : List HostOp} (hr : s.resetDone = true)
    (hp : s.program = .wait :: rest) (hb : s.busy = false) : s.hostTurn = .next (s.hostDone rest) := by
  rw [State.hostTurn, hp]
  simp only [hr, Bool.not_true, Bool.false_eq_true, if_false, State.statusWord_busy, hb]

/-- On an idle device such a Host turn moves the Host's own data only: its operation is off its list (R55, R253). -/
theorem State.HostIsPassive.hostTurn_eq {s : State} (h : s.HostIsPassive) (hb : s.busy = false)
    (hr : s.resetDone = true) : ∃ vs, s.hostTurn = .next { s with program := s.program.tail, reads := vs } := by
  rcases h with hp | ⟨off, rest, hp, hoff, h4⟩ | ⟨rest, hp⟩
  · refine ⟨s.reads, (State.hostTurn_of_nil hp).trans ?_⟩
    rw [hp, List.tail_nil, ← hp]
  · refine ⟨s.reads ++ [s.regRead off], (State.hostTurn_of_read hr hp hoff h4).trans ?_⟩
    rw [hp]
    rfl
  · refine ⟨s.reads, (State.hostTurn_of_wait_idle hr hp hb).trans ?_⟩
    rw [hp]
    rfl

/-- The Engine of an idle device does nothing (log entry 3). -/
theorem State.engineTurn_of_idle {s : State} (hb : s.busy = false) (hr : s.resetDone = true) :
    s.engineTurn = .next s := by
  simp only [State.engineTurn, hr, hb, Bool.not_true, Bool.false_eq_true, if_false]

/-- Settles O45, by the agent that moves. -/
theorem resetWaitsForCommand : Obligations.ResetWaitsForCommand := by
  intro s hb hr hm hpassive
  rcases hm with hm | hm
  · have h : s.afterTurn.HostIsPassive := hpassive
    obtain ⟨vs, hturn⟩ := h.hostTurn_eq hb hr
    refine ⟨{ s.afterTurn with program := s.program.tail, reads := vs }, ?_, rfl, .inr ⟨hm, rfl⟩⟩
    rw [step_eq, hm]
    exact hturn
  · refine ⟨s.afterTurn, ?_, rfl, .inl rfl⟩
    rw [step_eq, hm]
    exact State.engineTurn_of_idle (s := s.afterTurn) hb hr

/-! ### A CMD write that races the Engine -/

/-- An effect does not read E_BUSY, the Host's list and the schedule, and it leaves them. -/
theorem Effect.apply_withHostItems {f : Effect} {s u : State} (h : f.apply s = .next u) (e : Bool)
    (ops : List HostOp) (turns : List Turn) :
    f.apply { s with errBusy := e, program := ops, schedule := turns } =
      .next { u with errBusy := e, program := ops, schedule := turns } := by
  cases f with
  | stuck => cases h
  | done | doneResult | init | wipe | redraw =>
    obtain rfl := Host.Outcome.next.inj h
    rfl

/-- Nor does any command: it does not see what a dropped Host write changes (R255). -/
theorem exec_withHostItems {i : Instr} {s u : State} (h : exec i s = .next u) (e : Bool) (ops : List HostOp)
    (turns : List Turn) :
    exec i { s with errBusy := e, program := ops, schedule := turns } =
      .next { u with errBusy := e, program := ops, schedule := turns } := by
  rw [exec_eq_effect] at h ⊢
  exact Effect.apply_withHostItems h e ops turns

/-- What no command touches: the build, the mark of a reset, E_BUSY, the Host's list and the schedule. -/
theorem exec_keeps_hostItems {i : Instr} {s u : State} (h : exec i s = .next u) :
    u.build = s.build ∧ u.resetDone = s.resetDone ∧ u.errBusy = s.errBusy ∧ u.program = s.program ∧
      u.schedule = s.schedule := by
  rcases exec_cases h with ⟨-, c, rfl⟩ | ⟨-, -, -, c, r, rfl⟩ | ⟨-, rfl⟩ | ⟨-, rfl⟩ | ⟨-, l, -, -, -, rfl⟩ <;>
    exact ⟨rfl, rfl, rfl, rfl, rfl⟩

/-- A device runs a command while the Host is about to write the legal word `w`; `u` is the live idle state in which the
command completes when nothing else is scheduled. -/
structure State.Races (s : State) (l : Latch) (i j : Instr) (w : Word) (rest : List HostOp) (u : State) : Prop where
  resetDone : s.resetDone = true
  busy : s.busy = true
  latch : s.latch = some l
  running : decode s.build.primitives l.word = .cmd i
  legal : decode s.build.primitives w = .cmd j
  program : s.program = .write .word 0x000 w :: rest
  completes : exec i { s with schedule := [] } = .next u
  idle : u.busy = false
  live : u.valid = true

section Race

variable {s u : State} {l : Latch} {i j : Instr} {w : Word} {rest : List HostOp} (h : s.Races l i j w rest u)
include h

/-- If the Engine moves first, the command completes and the idle device latches the word (R255). -/
theorem State.Races.engine_first : Host.Core.run Sys2Proof.core 2 { s with schedule := [.engine, .host] } =
    .next { u with latch := some ⟨w, u.arg⟩, busy := true, program := rest } := by
  obtain ⟨hbuild, hreset, herr, hprogram, hschedule⟩ := exec_keeps_hostItems h.completes
  have hcompletes : step { s with schedule := [.engine, .host] } = .next { u with schedule := [.host] } := by
    rw [(stepRunsLatchedCommand { s with schedule := [.engine, .host] } l i h.latch h.running h.busy h.resetDone).1
      [.host] rfl, exec_withHostItems h.completes s.errBusy s.program [.host], ← herr, ← hprogram]
  have hmoves : State.HostMoves { u with schedule := [.host] } (.write .word 0x000 w) rest [] :=
    ⟨rfl, hprogram.trans h.program, hreset.trans h.resetDone⟩
  have hlatches := ((commandAcceptance _ w rest [] hmoves).2.2 j h.idle (hbuild ▸ h.legal)).2 (.inl h.live)
  rw [run_succ hcompletes, run_succ hlatches, run_zero, hschedule]

/-- If the Host moves first, the busy device drops the word, and the command completes as before (R255). -/
theorem State.Races.host_first : Host.Core.run Sys2Proof.core 2 { s with schedule := [.host, .engine] } =
    .next { u with errBusy := true, program := rest } := by
  obtain ⟨-, -, -, -, hschedule⟩ := exec_keeps_hostItems h.completes
  have hmoves : State.HostMoves { s with schedule := [.host, .engine] } (.write .word 0x000 w) rest [.engine] :=
    ⟨rfl, h.program, h.resetDone⟩
  have hdrops := (commandAcceptance _ w rest [.engine] hmoves).1 h.busy
  have hcompletes := (stepRunsLatchedCommand { s with errBusy := true, program := rest, schedule := [.engine] } l i
    h.latch h.running h.busy h.resetDone).1 [] rfl
  rw [run_succ hdrops, run_succ (hcompletes.trans (exec_withHostItems h.completes true rest [])), run_zero, hschedule]

end Race

/-- Settles O54: the two orders, one lemma for each. -/
theorem nowaitRaceHasTwoOutcomes : Obligations.NowaitRaceHasTwoOutcomes := by
  intro s u l i j w rest hr hb hl hi hj hp hx hidle hlive
  have h : s.Races l i j w rest u := ⟨hr, hb, hl, hi, hj, hp, hx, hidle, hlive⟩
  exact ⟨h.engine_first, h.host_first⟩

end Sys2Proof.Machine
end
